-- ==== Sys2Proof/Word.lean ====
section
/-! DEFINITION. Bytes, byte sequences and the 128-bit value word (`00_scope.md` R7 `VAL_W`, R9; `20_memory.md` R61). -/

namespace Sys2Proof

/-- A byte is 8 bits (R61). -/
abbrev Byte := BitVec 8

/-- A byte sequence has a length and elements below 256 (R9): a buffer, a blob image. -/
abbrev Bytes := List Byte

/-- The width of the integer value operand and result is 128 bits (R7 `VAL_W`). -/
abbrev Val := BitVec 128

end Sys2Proof
end

