-- ==== Sys2Proof/Config.lean ====
section
/-! DEFINITION. The parameters of the ENGINE that have a value (`00_scope.md` R7).
`VAL_W`, `CMD_W` and `STATUS_W` are the widths of the types `Val` and `Byte`; `NSLOTS` = 1 is the type `Option` of
the schema store; `MAX_BITWIDTH`, `MAX_FIELDS` and `ADDR_W` are open and unbounded (D6, log 8), so they are the types
`Nat` and `List`; `Name` is open (D7, log 6). No choice of the spec is left to a free value, so no opaque constant
stands here (`93_implementation_defined.md`: "No row needs `stuck` or `any value`"). -/

namespace Sys2Proof.Config

/-- The largest `count` of RDBITS and WRBITS (R7 `MAX_COUNT`). -/
def maxCount : Nat := 128

/-- The legal native widths of an integer field (R7 `NATIVE_WIDTHS`, D5). -/
def nativeWidths : List Nat := [8, 16, 32, 64, 128]

end Sys2Proof.Config
end

