-- ==== Sys2Proof/Syntax.lean ====
section
/-! DEFINITION. Commands and their operands as syntax: the nine operations (`30_encoding.md` R81), the operand types
(`10_state.md` R22, R28, R29, R30), the input ports (R24), the HOST's events (R240) and the written form of a
command (R88). -/

namespace Sys2Proof

/-- A field name: an identifier of which only equality matters (R7 `Name`, D7; log 6). -/
structure FieldName where
  id : Nat
  deriving DecidableEq, Repr

/-- The native width of an integer field, one of {8, 16, 32, 64, 128} (R22, D5). -/
inductive NativeWidth where
  | w8 | w16 | w32 | w64 | w128
  deriving DecidableEq, Repr

/-- The kind of a field (R22). -/
inductive ValueKind where
  | unsignedInteger (nw : NativeWidth)
  | byteBlob
  deriving DecidableEq, Repr

/-- A field spec of a candidate schema (R30), its kind in the 3-bit code of R85, of which 6 and 7 are reserved. -/
structure FieldSpec where
  name     : FieldName
  bitWidth : Nat
  kindCode : BitVec 3
  deriving DecidableEq, Repr

/-- A Value (R28): an unsigned integer below `2^128`, or an opaque byte sequence. The tag is part of the value. -/
inductive Value where
  | int  (v : Val)
  | blob (o : Bytes)
  deriving DecidableEq, Repr

/-- FieldValues (R29): a finite map from names to values, as entries in strictly rising order of name id, so that
equal maps are equal data (`FieldValues.wf`; log 7). -/
abbrev FieldValues := List (FieldName × Value)

/-- The input ports (R24). `buf` is the number of the HOST buffer handed over as BUF (R25; log 3). -/
structure Ports where
  cmd   : Byte
  start : Nat
  len   : Nat
  val   : Val
  fidx  : Nat
  fval  : Value
  blob  : Bytes
  buf   : Nat
  specs : List FieldSpec
  vals  : FieldValues
  deriving DecidableEq, Repr

/-- The operand ports of R24 by name, CMD apart. `buf` and `ss` name what a command reads or produces (R84). -/
inductive Port where
  | start | len | val | fidx | fval | blob | buf | specs | vals | rval | rfval | rblob | rvals
  deriving DecidableEq, Repr

/-- The four operand formats of R84, one per component of R2. -/
inductive Format where
  | S | C | F | R
  deriving DecidableEq, Repr

/-- What the HOST does, one event at a time (R230, R235, R240, R241): present a command with its ports, reset the
ENGINE, or write one of its own buffers between two commands (log 1). -/
inductive HostEvent where
  | command (p : Ports)
  | reset
  | buffer (h : Nat) (bytes : Bytes)
  deriving DecidableEq, Repr

/-- The commands (R81), one constructor per row of the opcode table; `strict` is the S bit (R82). Operands are not
part of the command (R80): they stand on the ports. -/
inductive Instr where
  | build
  | rdbits
  | wrbits
  | rdblob
  | wrblob
  | fenc (strict : Bool)
  | fdec
  | encode (strict : Bool)
  | decode
  deriving DecidableEq, Repr

/-- The three ways a command byte is illegal (R83, V1 to V3). -/
inductive DecodeError where
  /-- bits 7 to 5 are not 0 -/
  | reservedBits
  /-- OP is 0x0 or 0xA to 0xF -/
  | reservedOp
  /-- S = 1 with an operation other than FENC and ENCODE -/
  | strictNotAllowed
  deriving DecidableEq, Repr

/-- One line of the written form of a command (R88), as abstract syntax: a mnemonic with its operands. -/
inductive AsmLine where
  | build  (specs : List (FieldName × Nat × ValueKind))
  | rdbits (start count : Nat)
  | wrbits (start count : Nat) (value : Val)
  | rdblob (start bitLength : Nat)
  | wrblob (start bitLength : Nat) (bytes : Bytes)
  | fenc   (strict : Bool) (fidx : Nat) (value : Value)
  | fdec   (fidx : Nat)
  | encode (strict : Bool) (vals : FieldValues)
  | decode
  deriving DecidableEq, Repr

end Sys2Proof
end

