-- ==== Sys2Proof/WellFormed.lean ====
section
/-! DEFINITION. Well-formed terms. Every `Instr` is well formed: the S bit exists only where R82 allows it. What can
be ill formed is an operand that stands for a finite map: `VALS` holds "at most one value per name" (R29), in the
canonical order that makes equal maps equal data (log 7). The other operands are in range by their types: any
natural, any byte sequence, any 128-bit value; a reserved kind code is no ill-formed term, BUILD answers it (R85). -/

namespace Sys2Proof

/-- At most one value per name, entries in rising order of name id (R29; log 7). -/
abbrev FieldValues.wf (vals : FieldValues) : Prop := vals.Pairwise fun a b => a.1.id < b.1.id

/-- The ports hold well-formed operands. -/
abbrev Ports.wf (p : Ports) : Prop := FieldValues.wf p.vals

/-- A HOST event carries well-formed operands. -/
def HostEvent.wf : HostEvent → Bool
  | .command p  => decide p.wf
  | .reset      => true
  | .buffer _ _ => true

/-- A written command carries well-formed operands. -/
def AsmLine.wf : AsmLine → Bool
  | .encode _ vals => decide (FieldValues.wf vals)
  | _ => true

end Sys2Proof
end

