-- ==== Sys2Proof/Decode.lean ====
section
/-! DEFINITION. The command byte read and written (`30_encoding.md` R80 to R83), kind codes (R85), the concrete form
of a Value (R86), and the written form of a command (R88). -/

namespace Sys2Proof

/-! ## The command byte -/

/-- CMD[7:5] (R80). -/
def rsvField (b : Byte) : BitVec 3 := b.extractLsb' 5 3

/-- CMD[4], the STRICT option (R80, R82). -/
def strictField (b : Byte) : Bool := b.getLsbD 4

/-- CMD[3:0] (R80). -/
def opField (b : Byte) : BitVec 4 := b.extractLsb' 0 4

/-- An operation that has no strict form: S must be 0 (R82, V3). -/
def withoutStrict (s : Bool) (i : Instr) : Except DecodeError Instr :=
  if s then .error .strictNotAllowed else .ok i

/-- The command a byte names (R81), or why it is illegal (R83). Total on all 256 bytes. -/
def decodeByte (b : Byte) : Except DecodeError Instr :=
  if rsvField b ≠ 0 then .error .reservedBits
  else match (opField b).toNat with
    | 1 => withoutStrict (strictField b) .build
    | 2 => withoutStrict (strictField b) .rdbits
    | 3 => withoutStrict (strictField b) .wrbits
    | 4 => withoutStrict (strictField b) .rdblob
    | 5 => withoutStrict (strictField b) .wrblob
    | 6 => .ok (.fenc (strictField b))
    | 7 => withoutStrict (strictField b) .fdec
    | 8 => .ok (.encode (strictField b))
    | 9 => withoutStrict (strictField b) .decode
    | _ => .error .reservedOp

/-- The OP code of a command (R81). -/
def opCode : Instr → BitVec 4
  | .build    => 0x1
  | .rdbits   => 0x2
  | .wrbits   => 0x3
  | .rdblob   => 0x4
  | .wrblob   => 0x5
  | .fenc _   => 0x6
  | .fdec     => 0x7
  | .encode _ => 0x8
  | .decode   => 0x9

/-- The S bit of a command (R82). -/
def strictBit : Instr → Bool
  | .fenc s   => s
  | .encode s => s
  | .build | .rdbits | .wrbits | .rdblob | .wrblob | .fdec | .decode => false

/-- The command byte of a command: RSV = 0, S, OP from bit 7 down (R80). -/
def encodeInstr (i : Instr) : Byte := (0 : BitVec 3) ++ BitVec.ofBool (strictBit i) ++ opCode i

/-- The first byte of an instruction whose bits are `w`: an instruction is one byte (R80), so bits above `nbits`,
and above bit 7, do not exist. -/
def tableByte (nbits w : Nat) : Byte := BitVec.ofNat 8 (w % 2 ^ nbits)

/-- The instruction the decoder reads from a word of the opcode table. -/
def decodeTableWord (nbits w : Nat) : Option Instr := (decodeByte (tableByte nbits w)).toOption

/-! ## Kind codes and the concrete form of a Value -/

/-- The width in bits of a native width (R22). -/
def NativeWidth.bits : NativeWidth → Nat
  | .w8 => 8 | .w16 => 16 | .w32 => 32 | .w64 => 64 | .w128 => 128

/-- The kind a 3-bit code names; 6 and 7 are reserved (R85). -/
def kindOfCode (c : BitVec 3) : Option ValueKind :=
  match c.toNat with
  | 0 => some (.unsignedInteger .w8)
  | 1 => some (.unsignedInteger .w16)
  | 2 => some (.unsignedInteger .w32)
  | 3 => some (.unsignedInteger .w64)
  | 4 => some (.unsignedInteger .w128)
  | 5 => some .byteBlob
  | _ => none

/-- The 3-bit code of a kind (R85). -/
def codeOfKind : ValueKind → BitVec 3
  | .unsignedInteger .w8   => 0
  | .unsignedInteger .w16  => 1
  | .unsignedInteger .w32  => 2
  | .unsignedInteger .w64  => 3
  | .unsignedInteger .w128 => 4
  | .byteBlob              => 5

/-- The 1-bit tag of a Value (R86): 0 = Int, 1 = Blob. -/
def valueTag : Value → BitVec 1
  | .int _  => 0
  | .blob _ => 1

/-- The concrete form of a Value (R86): its tag, then the 128-bit integer, or a byte count and that many bytes. -/
def encodeValue : Value → BitVec 1 × (Val ⊕ Nat × Bytes)
  | .int v  => (0, .inl v)
  | .blob o => (1, .inr (o.length, o))

/-- The Value a concrete form stands for (R86), none where tag, count and payload do not agree. -/
def decodeValue : BitVec 1 × (Val ⊕ Nat × Bytes) → Option Value
  | (t, .inl v)      => if t = 0 then some (.int v) else none
  | (t, .inr (n, o)) => if t = 1 ∧ n = o.length then some (.blob o) else none

/-! ## The written form of a command -/

/-- The ports at rest: no command presented. All zero, and the zero command byte is illegal (R83; log 2). -/
def Ports.idle : Ports where
  cmd := 0
  start := 0
  len := 0
  val := 0
  fidx := 0
  fval := .int 0
  blob := []
  buf := 0
  specs := []
  vals := []

/-- A written field spec `name:bitWidth:kind` as the field spec BUILD receives (R88). -/
def assembleSpec (f : FieldName × Nat × ValueKind) : FieldSpec := ⟨f.1, f.2.1, codeOfKind f.2.2⟩

/-- The command a written line names (R88). -/
def AsmLine.instr : AsmLine → Instr
  | .build _      => .build
  | .rdbits _ _   => .rdbits
  | .wrbits _ _ _ => .wrbits
  | .rdblob _ _   => .rdblob
  | .wrblob _ _ _ => .wrblob
  | .fenc s _ _   => .fenc s
  | .fdec _       => .fdec
  | .encode s _   => .encode s
  | .decode       => .decode

/-- The operands a written line puts on the ports (R88), BUF and CMD apart. -/
def AsmLine.operands : AsmLine → Ports → Ports
  | .build specs,    p => { p with specs := specs.map assembleSpec }
  | .rdbits a n,     p => { p with start := a, len := n }
  | .wrbits a n v,   p => { p with start := a, len := n, val := v }
  | .rdblob a n,     p => { p with start := a, len := n }
  | .wrblob a n o,   p => { p with start := a, len := n, blob := o }
  | .fenc _ i x,     p => { p with fidx := i, fval := x }
  | .fdec i,         p => { p with fidx := i }
  | .encode _ vals,  p => { p with vals := vals }
  | .decode,         p => p

/-- A written line assembles to exactly one command byte and its operands; the buffer `buf` is the one the program
text runs against (R88). -/
def AsmLine.assemble (buf : Nat) (a : AsmLine) : Ports :=
  { a.operands Ports.idle with cmd := encodeInstr a.instr, buf := buf }

/-- A field spec in its written form, none where its kind code is reserved: the text has no word for it. -/
def disassembleSpec (f : FieldSpec) : Option (FieldName × Nat × ValueKind) :=
  (kindOfCode f.kindCode).map fun k => (f.name, f.bitWidth, k)

/-- The written line of a command with the operands on its ports: only the ports that R84 lists for the command. -/
def disassemble (p : Ports) : Option AsmLine :=
  match decodeByte p.cmd with
  | .error _           => none
  | .ok .build         => (p.specs.mapM disassembleSpec).map .build
  | .ok .rdbits        => some (.rdbits p.start p.len)
  | .ok .wrbits        => some (.wrbits p.start p.len p.val)
  | .ok .rdblob        => some (.rdblob p.start p.len)
  | .ok .wrblob        => some (.wrblob p.start p.len p.blob)
  | .ok (.fenc s)      => some (.fenc s p.fidx p.fval)
  | .ok .fdec          => some (.fdec p.fidx)
  | .ok (.encode s)    => some (.encode s p.vals)
  | .ok .decode        => some .decode

/-- A name as a bare identifier; the spec fixes no spelling of names (R88; log 18). -/
def nameText (n : FieldName) : String := "n" ++ toString n.id

/-- One hexadecimal digit. -/
def hexDigit (d : Nat) : String := ("0123456789ABCDEF".toList.getD d '0').toString

/-- A byte as a two-digit hexadecimal group (R88). -/
def byteText (b : Byte) : String := hexDigit (b.toNat / 16) ++ hexDigit (b.toNat % 16)

/-- A byte sequence as hexadecimal groups in angle brackets (R88). -/
def bytesText (o : Bytes) : String := "<" ++ String.intercalate " " (o.map byteText) ++ ">"

/-- A value as a decimal number or a byte sequence (R88). -/
def valueText : Value → String
  | .int v  => toString v.toNat
  | .blob o => bytesText o

/-- A kind by its name (R88). -/
def kindText : ValueKind → String
  | .unsignedInteger .w8   => "U8"
  | .unsignedInteger .w16  => "U16"
  | .unsignedInteger .w32  => "U32"
  | .unsignedInteger .w64  => "U64"
  | .unsignedInteger .w128 => "U128"
  | .byteBlob              => "BLOB"

/-- The text of `name:bitWidth:kind` (R88). -/
def specText (f : FieldName × Nat × ValueKind) : String :=
  nameText f.1 ++ ":" ++ toString f.2.1 ++ ":" ++ kindText f.2.2

/-- The text of an entry `name=value` (R88). -/
def entryText (e : FieldName × Value) : String := nameText e.1 ++ "=" ++ valueText e.2

/-- The operands of FENC in text (R88). -/
def fencText (i : Nat) (x : Value) : String := " " ++ toString i ++ ", " ++ valueText x

/-- The map of ENCODE in text, in curly brackets (characters 123 and 125; R88). -/
def valsText (vals : FieldValues) : String :=
  " " ++ (Char.ofNat 123).toString ++ String.intercalate ", " (vals.map entryText) ++ (Char.ofNat 125).toString

/-- The text of a written line (R88), numbers in decimal. -/
def AsmLine.text : AsmLine → String
  | .build specs       => "BUILD (" ++ String.intercalate ", " (specs.map specText) ++ ")"
  | .rdbits a n        => "RDBITS " ++ toString a ++ ", " ++ toString n
  | .wrbits a n v      => "WRBITS " ++ toString a ++ ", " ++ toString n ++ ", " ++ toString v.toNat
  | .rdblob a n        => "RDBLOB " ++ toString a ++ ", " ++ toString n
  | .wrblob a n o      => "WRBLOB " ++ toString a ++ ", " ++ toString n ++ ", " ++ bytesText o
  | .fenc false i x    => "FENC" ++ fencText i x
  | .fenc true i x     => "FENC.S" ++ fencText i x
  | .fdec i            => "FDEC " ++ toString i
  | .encode false vals => "ENCODE" ++ valsText vals
  | .encode true vals  => "ENCODE.S" ++ valsText vals
  | .decode            => "DECODE"

end Sys2Proof
end

