-- ==== Sys2Proof/Machine/State.lean ====
section
/-! DEFINITION. The state of the ENGINE and of the HOST's side of a run, as plain data (`10_state.md`; INVENTORY.md
`## State` lists every field), the errors and their codes as types (`60_exceptions.md` R200 to R202), the response
(R26), and the state after reset (R34, R230). -/

namespace Sys2Proof.Machine

/-! ## The schema store -/

/-- A FieldDescriptor, one schema entry (R22). -/
structure FieldDescriptor where
  name      : FieldName
  bitWidth  : Nat
  bitOffset : Nat
  valueKind : ValueKind
  deriving DecidableEq, Repr

/-- A RegisterSchema (R23): the fields in bit layout order, and the total number of bits. -/
structure RegisterSchema where
  fields    : List FieldDescriptor
  totalBits : Nat
  deriving DecidableEq, Repr

/-! ## Errors and the response -/

/-- The five error classes (R87, R200, R202). -/
inductive ErrorClass where
  | schemaError | bitRangeError | fieldError | codecError | operandError
  deriving DecidableEq, Repr

/-- The members of STATUS (R201): success and the seventeen errors, and nothing else (V5). -/
inductive Status where
  | success
  | emptySchema | zeroWidthField | nativeWidthTooSmall | duplicateName
  | outOfBounds | valueTooWide
  | valueExceedsWidth | blobLengthMismatch | missingField
  | bufferTooShort
  | illegalCommand | noSchema | badFieldIndex | badCount | badBlobLength | kindMismatch | badKind
  deriving DecidableEq, Repr

/-- An error as a command raises it (R10 `raise E(info)`): the ten of R200 and the seven of R202, with the name an
error carries. -/
inductive EngineError where
  | emptySchema
  | zeroWidthField (name : FieldName)
  | nativeWidthTooSmall (name : FieldName)
  | duplicateName (name : FieldName)
  | outOfBounds
  | valueTooWide
  | valueExceedsWidth (name : FieldName)
  | blobLengthMismatch (name : FieldName)
  | missingField (name : FieldName)
  | bufferTooShort
  | illegalCommand
  | noSchema
  | badFieldIndex
  | badCount
  | badBlobLength
  | kindMismatch (name : FieldName)
  | badKind (name : FieldName)
  deriving DecidableEq, Repr

/-- The response of a command (R26): STATUS, ENAME and the result ports (R24), each `none` where it is not
produced. `buf` is the buffer a write command or ENCODE returns. -/
structure Response where
  status : Status
  ename  : Option FieldName := none
  rval   : Option Val := none
  rfval  : Option Value := none
  rblob  : Option Bytes := none
  rvals  : Option FieldValues := none
  buf    : Option Bytes := none
  deriving DecidableEq, Repr

/-! ## The HOST's buffers -/

/-- The HOST's buffers (R25, R240): entries of buffer number and contents, in strictly rising order of number, none
empty. A number that is not listed is the empty byte sequence (log 3, log 4). -/
abbrev Memory := List (Nat × Bytes)

/-- The canonical form: numbers strictly rising, and no entry equal to what an unlisted number reads as. -/
abbrev Memory.wf (m : Memory) : Prop := (m.Pairwise fun a b => a.1 < b.1) ∧ ∀ e ∈ m, e.2 ≠ []

/-! ## The state -/

/-- The state of a run between two commands (R21, R240), with the ports of the command that is being executed. -/
structure State where
  /-- the schema store SS: the one thing that persists in the ENGINE (R21) -/
  ss      : Option RegisterSchema
  /-- the input ports: the presented command while `exec` runs it, `Ports.idle` otherwise (R24; log 2) -/
  ports   : Ports
  /-- the response the HOST last received; nothing of the ENGINE reads it (R26; log 9) -/
  resp    : Option Response
  /-- the HOST's buffers (R25; log 3) -/
  mem     : Memory
  /-- what the HOST does next, oldest first (R240; log 1) -/
  pending : List HostEvent
  deriving DecidableEq, Repr

/-- Why the machine stops with a fault: never. The step function is total (R36), every error is a response (R205),
and the situations W1 to W5 that the spec leaves without meaning cannot be expressed (log 15). Safe: there is no
fault to reach. -/
inductive Fault where
  deriving DecidableEq, Repr

/-- Why an instruction has no meaning. -/
inductive Refusal where
  /-- Raised by an arm of `exec` whose instruction has no meaning yet: by none. Safe: the run stops. -/
  | notModelled (mnemonic : String)
  deriving DecidableEq, Repr

/-- The state after reset (R34, R230): no schema. The ports are at rest (log 2), no response has been given (log 9),
the HOST's buffers are all empty (log 4) and the HOST has presented nothing (log 1). -/
def State.reset : State where
  ss := none
  ports := Ports.idle
  resp := none
  mem := []
  pending := []

end Sys2Proof.Machine
end

