-- ==== Sys2Proof/Machine/Flags.lean ====
section
/-! DEFINITION. The ENGINE has no flags, condition codes or sticky error bits (`10_state.md` R32): what a command
says about its outcome is the STATUS byte and ENAME of its response. This file gives every error its code, its class
and its name (`60_exceptions.md` R201; `30_encoding.md` R87). -/

namespace Sys2Proof.Machine

/-- The status byte (R201). -/
def Status.code : Status → Byte
  | .success             => 0x00
  | .emptySchema         => 0x10
  | .zeroWidthField      => 0x11
  | .nativeWidthTooSmall => 0x12
  | .duplicateName       => 0x13
  | .outOfBounds         => 0x20
  | .valueTooWide        => 0x21
  | .valueExceedsWidth   => 0x30
  | .blobLengthMismatch  => 0x31
  | .missingField        => 0x32
  | .bufferTooShort      => 0x40
  | .illegalCommand      => 0x50
  | .noSchema            => 0x51
  | .badFieldIndex       => 0x52
  | .badCount            => 0x53
  | .badBlobLength       => 0x54
  | .kindMismatch        => 0x55
  | .badKind             => 0x56

/-- The class of an error (R200, R202), none for success. -/
def Status.errorClass : Status → Option ErrorClass
  | .success             => none
  | .emptySchema         => some .schemaError
  | .zeroWidthField      => some .schemaError
  | .nativeWidthTooSmall => some .schemaError
  | .duplicateName       => some .schemaError
  | .outOfBounds         => some .bitRangeError
  | .valueTooWide        => some .bitRangeError
  | .valueExceedsWidth   => some .fieldError
  | .blobLengthMismatch  => some .fieldError
  | .missingField        => some .fieldError
  | .bufferTooShort      => some .codecError
  | .illegalCommand      => some .operandError
  | .noSchema            => some .operandError
  | .badFieldIndex       => some .operandError
  | .badCount            => some .operandError
  | .badBlobLength       => some .operandError
  | .kindMismatch        => some .operandError
  | .badKind             => some .operandError

/-- The high nibble that marks a class in the status byte (R87). -/
def ErrorClass.nibble : ErrorClass → Nat
  | .schemaError => 1 | .bitRangeError => 2 | .fieldError => 3 | .codecError => 4 | .operandError => 5

/-- The STATUS member an error reports (R201). -/
def EngineError.status : EngineError → Status
  | .emptySchema           => .emptySchema
  | .zeroWidthField _      => .zeroWidthField
  | .nativeWidthTooSmall _ => .nativeWidthTooSmall
  | .duplicateName _       => .duplicateName
  | .outOfBounds           => .outOfBounds
  | .valueTooWide          => .valueTooWide
  | .valueExceedsWidth _   => .valueExceedsWidth
  | .blobLengthMismatch _  => .blobLengthMismatch
  | .missingField _        => .missingField
  | .bufferTooShort        => .bufferTooShort
  | .illegalCommand        => .illegalCommand
  | .noSchema              => .noSchema
  | .badFieldIndex         => .badFieldIndex
  | .badCount              => .badCount
  | .badBlobLength         => .badBlobLength
  | .kindMismatch _        => .kindMismatch
  | .badKind _             => .badKind

/-- What an error records in ENAME (R201): its name, or none. -/
def EngineError.ename : EngineError → Option FieldName
  | .zeroWidthField n      => some n
  | .nativeWidthTooSmall n => some n
  | .duplicateName n       => some n
  | .valueExceedsWidth n   => some n
  | .blobLengthMismatch n  => some n
  | .missingField n        => some n
  | .kindMismatch n        => some n
  | .badKind n             => some n
  | .emptySchema | .outOfBounds | .valueTooWide | .bufferTooShort | .illegalCommand | .noSchema | .badFieldIndex
  | .badCount | .badBlobLength => none

/-- The response of a failed command (R26, R205): the status, the name or none, and no result port. -/
def EngineError.response (e : EngineError) : Response := { status := e.status, ename := e.ename }

/-- The response of a command that succeeds, before its result ports are filled in (R26). -/
def Response.ok : Response := { status := .success }

/-- The STATUS port of a response, 8 bits (R24, R26). -/
def Response.statusByte (r : Response) : Byte := r.status.code

end Sys2Proof.Machine
end

