-- ==== Sys2Proof/Machine/Ops.lean ====
section
/-! DEFINITION. The named operations: bits of a byte sequence (`20_memory.md` R50 to R60), the HOST's buffers (R25),
answering a command, raising an error (`60_exceptions.md` R205), and the HOST's events (`70_reset_and_hazards.md`
R230, R240). -/

namespace Sys2Proof.Machine

/-! ## Numbers and byte sequences -/

/-- The number of whole bytes that hold `n` bits (R8). -/
def ceil8 (n : Nat) : Nat := (n + 7) / 8

/-- The low `n` bits of `v` (R8, R169 (c)): the mask `(1 << n) - 1` with a mathematical power of two. -/
def trunc (n v : Nat) : Nat := v % 2 ^ n

/-- A sequence of `m` zero bytes (R9). -/
def zeros (m : Nat) : Bytes := List.replicate m 0

/-- The number a byte sequence stands for, first byte most significant; 0 for the empty sequence (R9). -/
def beVal (B : Bytes) : Nat := B.foldl (fun acc b => 256 * acc + b.toNat) 0

/-- The `m` bytes of `v`, first byte most significant (R9). -/
def beBytes (v m : Nat) : Bytes := (List.range m).map fun k => BitVec.ofNat 8 (v / 256 ^ (m - 1 - k))

/-- The number of bits of a buffer: `[s, s+n)` is in bounds of it when `s + n ≤ bitLen B` (R56, R61). -/
def bitLen (B : Bytes) : Nat := 8 * B.length

/-! ## Bits of a byte sequence -/

/-- The number whose `n` binary digits are `f 0` to `f (n-1)`, `f 0` most significant. -/
def bitsValue (f : Nat → Bool) : Nat → Nat
  | 0     => 0
  | n + 1 => 2 * bitsValue f n + (f n).toNat

/-- The byte whose bits, most significant first, are `f 0` to `f 7`. -/
def byteOfBits (f : Nat → Bool) : Byte := BitVec.ofNat 8 (bitsValue f 8)

/-- The `m` bytes in which bit index `i` is `f i` (R50). -/
def bytesOfBits (m : Nat) (f : Nat → Bool) : Bytes := (List.range m).map fun k => byteOfBits fun t => f (8 * k + t)

/-- Bit index `i` of a byte sequence: the bit of weight `2^(7 - i mod 8)` of byte `i div 8` (R50, R51). Past the last
byte, where R51 defines nothing and no command looks, it is `false`. -/
def bitAt (B : Bytes) (i : Nat) : Bool := (B.getD (i / 8) 0).getLsbD (7 - i % 8)

/-- `BitsRead(B, s, n)`: the `n` bits from bit index `s` as a number, the first most significant (R52). -/
def bitsRead (B : Bytes) (s n : Nat) : Nat := bitsValue (fun j => bitAt B (s + j)) n

/-- `BitsWrite(B, s, n, v)`: bit `s + j` becomes `(v div 2^(n-1-j)) mod 2`, every other bit stays (R57). -/
def bitsWrite (B : Bytes) (s n v : Nat) : Bytes :=
  bytesOfBits B.length fun i => if s ≤ i ∧ i < s + n then v.testBit (n - 1 - (i - s)) else bitAt B i

/-- The number of pad bits of a blob image of `L` bits (R60): the high bits of its first byte. -/
def blobPad (L : Nat) : Nat := 8 * ceil8 L - L

/-- The image of the `L` bits from bit index `s` (R60, R132): right-justified, pad bits 0. -/
def blobRead (B : Bytes) (s L : Nat) : Bytes :=
  bytesOfBits (ceil8 L) fun i => if i < blobPad L then false else bitAt B (s + (i - blobPad L))

/-- The buffer with the `L` bits from bit index `s` taken from the image `O`, pad bits of `O` dropped (R133). -/
def blobWrite (B : Bytes) (s L : Nat) (O : Bytes) : Bytes :=
  bytesOfBits B.length fun i => if s ≤ i ∧ i < s + L then bitAt O (blobPad L + (i - s)) else bitAt B i

/-! ## The HOST's buffers -/

/-- The contents of a HOST buffer; an unlisted one is empty (log 4). -/
def Memory.read : Memory → Nat → Bytes
  | [], _ => []
  | (k, C) :: rest, h => if k = h then C else Memory.read rest h

/-- The entries with one for buffer `h` holding `B`, in the order of the numbers. -/
def Memory.put : Memory → Nat → Bytes → Memory
  | [], h, B => [(h, B)]
  | (k, C) :: rest, h, B =>
    if h < k then (h, B) :: (k, C) :: rest
    else if h = k then (h, B) :: rest
    else (k, C) :: Memory.put rest h B

/-- The buffers with buffer `h` holding `B`; the empty sequence is what an unlisted buffer reads as, so writing it
removes the entry. -/
def Memory.write (m : Memory) (h : Nat) (B : Bytes) : Memory :=
  if B = [] then m.filter fun e => e.1 ≠ h else m.put h B

/-! ## Answering a command -/

/-- What one command or one step ends in. -/
abbrev Outcome := Host.Outcome State Fault Refusal

/-- The command is over: its response is given (R26) and its operands leave the ports, since "no operand survives the
command that brought it" (R24). -/
def State.answer (s : State) (r : Response) : State := { s with resp := some r, ports := Ports.idle }

/-- Raising an error, the one way a command fails (R205): the response carries the code and the name, and nothing
else changes. There is no return from an error: the next command runs as after a success (R206). -/
def State.raise (s : State) (e : EngineError) : State := s.answer e.response

/-- A command ends in the error its checks found (R207), or goes on with what they computed. -/
def State.finish {α : Type} (s : State) (r : Except EngineError α) (done : α → State) : Outcome :=
  match r with
  | .error e => .next (s.raise e)
  | .ok a    => .next (done a)

/-- The buffer handed over with the command (R25). -/
def State.handed (s : State) : Bytes := s.mem.read s.ports.buf

/-- A write command returns the updated buffer in its response, an update in place of the HOST's buffer (R25; log 3);
for ENCODE the buffer is the new one the HOST owns from the response on (R241; log 5). -/
def State.returnBuffer (s : State) (B : Bytes) : State :=
  { s with mem := s.mem.write s.ports.buf B }.answer { Response.ok with buf := some B }

/-- A successful BUILD replaces the whole content of the schema store (R114). -/
def State.loadSchema (s : State) (sch : RegisterSchema) : State := { s with ss := some sch }.answer Response.ok

/-! ## The HOST's events -/

/-- The HOST presents a command: its operands stand on the ports, and the event is taken (R240). -/
def State.present (s : State) (p : Ports) (rest : List HostEvent) : State := { s with ports := p, pending := rest }

/-- A command byte that names no command raises IllegalCommand before any operand is looked at (R83, R89). -/
def illegalCommand (s : State) : Outcome := .next (s.raise .illegalCommand)

/-- Reset, between two commands (R230): the schema store is emptied; the HOST's buffers are not touched. Nothing else
persists in the ENGINE (R34); the last response is not kept (R26; log 17). -/
def hostReset (s : State) (rest : List HostEvent) : Outcome :=
  .next { s with ss := none, ports := Ports.idle, resp := none, pending := rest }

/-- The HOST writes, creates or frees one of its own buffers between two commands (R25, R234; log 1). -/
def hostBuffer (s : State) (h : Nat) (B : Bytes) (rest : List HostEvent) : Outcome :=
  .next { s with mem := s.mem.write h B, pending := rest }

/-- The HOST presents nothing: the ENGINE executes nothing (R231; log 10). -/
def hostIdle (s : State) : Outcome := .next s

/-- The HOST's events with command byte `b` presented next: the byte of the command that already stands first, or a
command with its operand ports at rest. -/
def presentNext (b : Byte) : List HostEvent → List HostEvent
  | .command p :: rest => .command { p with cmd := b } :: rest
  | events => .command { Ports.idle with cmd := b } :: events

end Sys2Proof.Machine
end

