-- ==== Sys2Proof/Machine/Operands.lean ====
section
/-! DEFINITION. Operands: which ports a command reads and produces (`30_encoding.md` R84), the FieldValues map
(`10_state.md` R29), the field a command addresses (`42_field_codec.md` R162) and the schema it uses
(`43_register_codec.md` R182). -/

namespace Sys2Proof.Machine

/-! ## The table of R84 -/

/-- The operand format of a command (R84). -/
def instrFormat : Instr → Format
  | .build => .S
  | .rdbits | .wrbits | .rdblob | .wrblob => .C
  | .fenc _ | .fdec => .F
  | .encode _ | .decode => .R

/-- The operand ports a command reads (R84). -/
def portsRead : Instr → List Port
  | .build    => [.specs]
  | .rdbits   => [.buf, .start, .len]
  | .wrbits   => [.buf, .start, .len, .val]
  | .rdblob   => [.buf, .start, .len]
  | .wrblob   => [.buf, .start, .len, .blob]
  | .fenc _   => [.buf, .fidx, .fval]
  | .fdec     => [.buf, .fidx]
  | .encode _ => [.vals]
  | .decode   => [.buf]

/-- The result ports a command produces on success, STATUS and ENAME apart (R84). -/
def portsProduced : Instr → List Port
  | .build    => []
  | .rdbits   => [.rval]
  | .wrbits   => [.buf]
  | .rdblob   => [.rblob]
  | .wrblob   => [.buf]
  | .fenc _   => [.buf]
  | .fdec     => [.rfval]
  | .encode _ => [.buf]
  | .decode   => [.rvals]

/-- Whether a command reads the schema store (R21, R84). -/
def readsSchema : Instr → Bool
  | .fenc _ | .fdec | .encode _ | .decode => true
  | .build | .rdbits | .wrbits | .rdblob | .wrblob => false

/-- Whether a command writes the schema store on success (R21, R84). -/
def writesSchema : Instr → Bool
  | .build => true
  | .rdbits | .wrbits | .rdblob | .wrblob | .fenc _ | .fdec | .encode _ | .decode => false

/-- The result ports a response carries (R26). -/
def Response.produced (r : Response) : List Port :=
  (if r.rval.isSome then [.rval] else []) ++ (if r.rfval.isSome then [.rfval] else []) ++
  (if r.rblob.isSome then [.rblob] else []) ++ (if r.rvals.isSome then [.rvals] else []) ++
  (if r.buf.isSome then [.buf] else [])

/-- Two sets of ports carry the same operand on one port. -/
def samePort (p q : Ports) : Port → Prop
  | .start => p.start = q.start
  | .len   => p.len = q.len
  | .val   => p.val = q.val
  | .fidx  => p.fidx = q.fidx
  | .fval  => p.fval = q.fval
  | .blob  => p.blob = q.blob
  | .buf   => p.buf = q.buf
  | .specs => p.specs = q.specs
  | .vals  => p.vals = q.vals
  | .rval | .rfval | .rblob | .rvals => True

/-! ## FieldValues -/

/-- `vals(nm)`: the value of a name, `none` where it is absent (R29). -/
def valueOf : FieldValues → FieldName → Option Value
  | [], _ => none
  | (k, x) :: rest, nm => if k = nm then some x else valueOf rest nm

/-- The mapping with `nm` mapped to `x`, in the canonical order (R29, `R(f.name) <- x` of R181). -/
def setValue : FieldValues → FieldName → Value → FieldValues
  | [], nm, x => [(nm, x)]
  | (k, y) :: rest, nm, x =>
    if nm.id < k.id then (nm, x) :: (k, y) :: rest
    else if nm = k then (nm, x) :: rest
    else (k, y) :: setValue rest nm x

/-! ## The schema and the addressed field -/

/-- The schema in SS, or NoSchema (R162, R182). -/
def loadedSchema (ss : Option RegisterSchema) : Except EngineError RegisterSchema :=
  match ss with
  | none   => .error .noSchema
  | some s => .ok s

/-- The field a FENC or FDEC command addresses: NoSchema, then BadFieldIndex, before any other check (R162). -/
def addressedField (ss : Option RegisterSchema) (fidx : Nat) : Except EngineError FieldDescriptor :=
  match ss with
  | none   => .error .noSchema
  | some s =>
    match s.fields[fidx]? with
    | none   => .error .badFieldIndex
    | some f => .ok f

end Sys2Proof.Machine
end

