-- ==== Sys2Proof/Machine/BitCursor.lean ====
section
/-! DEFINITION. The Bit Cursor, commands RDBITS, WRBITS, RDBLOB and WRBLOB (`41_bit_cursor.md` R130 to R136). The
checks stand in the order of R134: operand shape, bounds, then the width of the value. -/

namespace Sys2Proof.Machine

/-- `readBits(buffer, startBit, count)` (R130). -/
def readBits (B : Bytes) (start count : Nat) : Except EngineError Val :=
  if count < 1 ∨ count > Config.maxCount then .error .badCount
  else if start + count > bitLen B then .error .outOfBounds
  else .ok (BitVec.ofNat 128 (bitsRead B start count))

/-- `writeBits(buffer, startBit, count, value)` (R131): never masks, refuses a value that does not fit. -/
def writeBits (B : Bytes) (start count : Nat) (value : Val) : Except EngineError Bytes :=
  if count < 1 ∨ count > Config.maxCount then .error .badCount
  else if start + count > bitLen B then .error .outOfBounds
  else if value.toNat ≥ 2 ^ count then .error .valueTooWide
  else .ok (bitsWrite B start count value.toNat)

/-- `readBlob(buffer, startBit, bitLength)` (R132). -/
def readBlob (B : Bytes) (start L : Nat) : Except EngineError Bytes :=
  if start + L > bitLen B then .error .outOfBounds
  else .ok (blobRead B start L)

/-- `writeBlob(buffer, startBit, bitLength, bytes)` (R133). -/
def writeBlob (B : Bytes) (start L : Nat) (O : Bytes) : Except EngineError Bytes :=
  if O.length ≠ ceil8 L then .error .badBlobLength
  else if start + L > bitLen B then .error .outOfBounds
  else .ok (blobWrite B start L O)

/-- RDBITS (R130): RVAL is the value, zero-extended to 128 bits; the buffer is not changed. -/
def execRdbits (s : State) : Outcome :=
  s.finish (readBits s.handed s.ports.start s.ports.len) fun v => s.answer { Response.ok with rval := some v }

/-- WRBITS (R131): the updated buffer, same length. -/
def execWrbits (s : State) : Outcome :=
  s.finish (writeBits s.handed s.ports.start s.ports.len s.ports.val) s.returnBuffer

/-- RDBLOB (R132): RBLOB is the image; the buffer is not changed. -/
def execRdblob (s : State) : Outcome :=
  s.finish (readBlob s.handed s.ports.start s.ports.len) fun O => s.answer { Response.ok with rblob := some O }

/-- WRBLOB (R133): the updated buffer, same length. -/
def execWrblob (s : State) : Outcome :=
  s.finish (writeBlob s.handed s.ports.start s.ports.len s.ports.blob) s.returnBuffer

end Sys2Proof.Machine
end

