-- ==== Sys2Proof/Machine/FieldCodec.lean ====
section
/-! DEFINITION. The Field Codec, commands FENC and FDEC (`42_field_codec.md` R160 to R166). -/

namespace Sys2Proof.Machine

/-- The encode path of one field (R160, R163, R164): kind, then strict width or blob length, then the bounds check of
the cursor, all before the first bit is written. -/
def encodeField (strict : Bool) (f : FieldDescriptor) (B : Bytes) (x : Value) : Except EngineError Bytes :=
  match f.valueKind, x with
  | .unsignedInteger _, .blob _ => .error (.kindMismatch f.name)
  | .byteBlob, .int _ => .error (.kindMismatch f.name)
  | .unsignedInteger _, .int v =>
    if strict = true ∧ v.toNat ≥ 2 ^ f.bitWidth then .error (.valueExceedsWidth f.name)
    else if f.bitOffset + f.bitWidth > bitLen B then .error .outOfBounds
    else .ok (bitsWrite B f.bitOffset f.bitWidth (trunc f.bitWidth v.toNat))
  | .byteBlob, .blob O =>
    if O.length ≠ ceil8 f.bitWidth then .error (.blobLengthMismatch f.name)
    else if f.bitOffset + f.bitWidth > bitLen B then .error .outOfBounds
    else .ok (blobWrite B f.bitOffset f.bitWidth O)

/-- The value of a field's bit range (R161): an integer zero-extended to the native width, which changes no numeric
value (R165), or the blob image. -/
def fieldValue (f : FieldDescriptor) (B : Bytes) : Value :=
  match f.valueKind with
  | .unsignedInteger _ => .int (BitVec.ofNat 128 (bitsRead B f.bitOffset f.bitWidth))
  | .byteBlob => .blob (blobRead B f.bitOffset f.bitWidth)

/-- The decode path of one field (R161). -/
def decodeField (f : FieldDescriptor) (B : Bytes) : Except EngineError Value :=
  if f.bitOffset + f.bitWidth > bitLen B then .error .outOfBounds
  else .ok (fieldValue f B)

/-- FENC as a function of SS, buffer, index, value and S (R160). -/
def encodeAddressed (strict : Bool) (ss : Option RegisterSchema) (B : Bytes) (fidx : Nat) (x : Value) :
    Except EngineError Bytes :=
  match addressedField ss fidx with
  | .error e => .error e
  | .ok f    => encodeField strict f B x

/-- FDEC as a function of SS, buffer and index (R161). -/
def decodeAddressed (ss : Option RegisterSchema) (B : Bytes) (fidx : Nat) : Except EngineError Value :=
  match addressedField ss fidx with
  | .error e => .error e
  | .ok f    => decodeField f B

/-- FENC and FENC.S (R160): the updated buffer, same length. -/
def execFenc (strict : Bool) (s : State) : Outcome :=
  s.finish (encodeAddressed strict s.ss s.handed s.ports.fidx s.ports.fval) s.returnBuffer

/-- FDEC (R161): RFVAL is the field's value; the buffer is not changed. -/
def execFdec (s : State) : Outcome :=
  s.finish (decodeAddressed s.ss s.handed s.ports.fidx) fun x => s.answer { Response.ok with rfval := some x }

end Sys2Proof.Machine
end

