-- ==== Sys2Proof/Machine/RegisterCodec.lean ====
section
/-! DEFINITION. The Register Codec, commands ENCODE and DECODE (`43_register_codec.md` R180 to R188). -/

namespace Sys2Proof.Machine

/-- The field loop of ENCODE (R180): each value is looked up by name and stored by the encode path, in schema order,
up to the first error (R183). -/
def encodeFields (strict : Bool) (vals : FieldValues) : List FieldDescriptor → Bytes → Except EngineError Bytes
  | [], B => .ok B
  | f :: rest, B =>
    match valueOf vals f.name with
    | none   => .error (.missingField f.name)
    | some x =>
      match encodeField strict f B x with
      | .error e => .error e
      | .ok B'   => encodeFields strict vals rest B'

/-- `encode(schema, fieldValues)` (R180): into a new zeroed buffer of `ceil8(T)` bytes. -/
def encodeRegister (strict : Bool) (sch : RegisterSchema) (vals : FieldValues) : Except EngineError Bytes :=
  encodeFields strict vals sch.fields (zeros (ceil8 sch.totalBits))

/-- The field loop of DECODE (R181), in schema order, up to the first error (R183). -/
def decodeFields (B : Bytes) : List FieldDescriptor → FieldValues → Except EngineError FieldValues
  | [], R => .ok R
  | f :: rest, R =>
    match decodeField f B with
    | .error e => .error e
    | .ok x    => decodeFields B rest (setValue R f.name x)

/-- `decode(schema, buffer)` (R181): trailing bytes and pad bits are never looked at (R59). -/
def decodeRegister (sch : RegisterSchema) (B : Bytes) : Except EngineError FieldValues :=
  if B.length < ceil8 sch.totalBits then .error .bufferTooShort
  else decodeFields B sch.fields []

/-- ENCODE as a function of SS, the values and S (R180, R182). -/
def encodeLoaded (strict : Bool) (ss : Option RegisterSchema) (vals : FieldValues) : Except EngineError Bytes :=
  match loadedSchema ss with
  | .error e => .error e
  | .ok sch  => encodeRegister strict sch vals

/-- DECODE as a function of SS and the buffer (R181, R182). -/
def decodeLoaded (ss : Option RegisterSchema) (B : Bytes) : Except EngineError FieldValues :=
  match loadedSchema ss with
  | .error e => .error e
  | .ok sch  => decodeRegister sch B

/-- ENCODE and ENCODE.S (R180): a new buffer, owned by the HOST from the response on (R241). -/
def execEncode (strict : Bool) (s : State) : Outcome :=
  s.finish (encodeLoaded strict s.ss s.ports.vals) s.returnBuffer

/-- DECODE (R181): RVALS maps each field's name to its value; the buffer is not changed. -/
def execDecode (s : State) : Outcome :=
  s.finish (decodeLoaded s.ss s.handed) fun R => s.answer { Response.ok with rvals := some R }

end Sys2Proof.Machine
end

