-- ==== Sys2Proof/Machine/SchemaModel.lean ====
section
/-! DEFINITION. The Schema Model, command BUILD (`40_schema_model.md` R110 to R118). -/

namespace Sys2Proof.Machine

/-- A reserved kind code (R85): BUILD's check (0). -/
def hasBadKind (f : FieldSpec) : Bool := (kindOfCode f.kindCode).isNone

/-- The test of BUILD's check (3): an integer field wider than its native type (R111). -/
def tooWideForNative (f : FieldSpec) : Bool :=
  match kindOfCode f.kindCode with
  | some (.unsignedInteger nw) => decide (f.bitWidth > nw.bits)
  | some .byteBlob => false
  | none => false

/-- The name of the least `j` that repeats the name of some `i < j`, given the names already seen (R111 (4)). -/
def firstRepeat (seen : List FieldName) : List FieldName → Option FieldName
  | [] => none
  | x :: rest => if x ∈ seen then some x else firstRepeat (x :: seen) rest

/-- The first check of BUILD that fails, in the order of R111. -/
def schemaFault (specs : List FieldSpec) : Option EngineError :=
  match specs.find? hasBadKind with
  | some f => some (.badKind f.name)
  | none =>
    if specs = [] then some .emptySchema
    else match specs.find? (fun f => f.bitWidth == 0) with
      | some f => some (.zeroWidthField f.name)
      | none =>
        match specs.find? tooWideForNative with
        | some f => some (.nativeWidthTooSmall f.name)
        | none =>
          match firstRepeat [] (specs.map (·.name)) with
          | some nm => some (.duplicateName nm)
          | none => none

/-- The kind of a field spec whose code BUILD has checked (R85). -/
def specKind (f : FieldSpec) : ValueKind := (kindOfCode f.kindCode).getD .byteBlob

/-- The descriptors of the field specs, every offset the sum of the widths before it (R112, R113). -/
def layOut (off : Nat) : List FieldSpec → List FieldDescriptor
  | [] => []
  | f :: rest => ⟨f.name, f.bitWidth, off, specKind f⟩ :: layOut (off + f.bitWidth) rest

/-- `buildSchema(orderedFieldSpecs)`: the validated schema, or the first error (R110, R111, R112). -/
def buildSchema (specs : List FieldSpec) : Except EngineError RegisterSchema :=
  match schemaFault specs with
  | some e => .error e
  | none   => .ok ⟨layOut 0 specs, (specs.map (·.bitWidth)).sum⟩

/-- BUILD (R112): a valid list replaces the schema store, a faulty one changes nothing (R114, R115). -/
def execBuild (s : State) : Outcome := s.finish (buildSchema s.ports.specs) s.loadSchema

end Sys2Proof.Machine
end

