-- ==== Sys2Proof/Machine/Dispatch.lean ====
section
/-! DEFINITION. One arm per command (`30_encoding.md` R81). -/

namespace Sys2Proof.Machine

def exec (i : Instr) (s : State) : Host.Outcome State Fault Refusal :=
  match i with
  | .build => Sys2Proof.Machine.execBuild s
  | .rdbits => Sys2Proof.Machine.execRdbits s
  | .wrbits => Sys2Proof.Machine.execWrbits s
  | .rdblob => Sys2Proof.Machine.execRdblob s
  | .wrblob => Sys2Proof.Machine.execWrblob s
  | .fenc strict => Sys2Proof.Machine.execFenc strict s
  | .fdec => Sys2Proof.Machine.execFdec s
  | .encode strict => Sys2Proof.Machine.execEncode strict s
  | .decode => Sys2Proof.Machine.execDecode s

end Sys2Proof.Machine
end

