-- ==== Sys2Proof/Machine/Step.lean ====
section
/-! DEFINITION. One step: the HOST's next event (`70_reset_and_hazards.md` R240). A command is decoded before anything
else (`30_encoding.md` R89), then executed as one indivisible step (`10_state.md` R20, R36). -/

namespace Sys2Proof.Machine

/-- One step of a run (R36, R240). -/
def step (s : State) : Host.Outcome State Fault Refusal :=
  match s.pending with
  | [] => hostIdle s
  | .reset :: rest => hostReset s rest
  | .buffer h B :: rest => hostBuffer s h B rest
  | .command p :: rest =>
    match decodeByte p.cmd with
    | .error _ => illegalCommand (s.present p rest)
    | .ok i    => exec i (s.present p rest)

/-- `s` with the instruction of a table word presented next by the HOST, so that the very next `step` runs it: the
ENGINE fetches nothing, the HOST presents each command (R27; log 1). -/
def State.withFetchWord (s : State) (nbits w : Nat) : State :=
  { s with pending := presentNext (tableByte nbits w) s.pending }

end Sys2Proof.Machine
end

