-- ==== Sys2Proof/Safety.lean ====
section
/-! DEFINITION. What counts as a sound state and a safe run, in the terms the statements use: the schema invariants of
`10_state.md` R23, the invariant of a run, the errors each command may raise (`60_exceptions.md` R203). -/

namespace Sys2Proof.Machine

/-- The bit index one past a field's last bit. -/
def FieldDescriptor.endBit (f : FieldDescriptor) : Nat := f.bitOffset + f.bitWidth

/-- The offsets are the exact prefix sums of the widths, counted from `off` (R23 (b)). -/
def prefixSums (off : Nat) : List FieldDescriptor → Prop
  | [] => True
  | f :: rest => f.bitOffset = off ∧ prefixSums (off + f.bitWidth) rest

/-- The sum of the widths of the fields (R23 (a)). -/
def widthSum (fields : List FieldDescriptor) : Nat := (fields.map (·.bitWidth)).sum

/-- A field's width is at least 1, and at most the native width of an integer field (R23 (c), (d)). -/
def FieldDescriptor.widthOk (f : FieldDescriptor) : Prop :=
  1 ≤ f.bitWidth ∧ ∀ nw, f.valueKind = .unsignedInteger nw → f.bitWidth ≤ nw.bits

/-- The invariants of a RegisterSchema (R23): at least one field, (a) to (e); (f) is the absence of a demand. -/
structure RegisterSchema.Valid (sch : RegisterSchema) : Prop where
  nonempty : sch.fields ≠ []
  total    : sch.totalBits = widthSum sch.fields
  offsets  : prefixSums 0 sch.fields
  widths   : ∀ f ∈ sch.fields, f.widthOk
  names    : (sch.fields.map (·.name)).Nodup

/-! ## What the rules say of bits and values, in the rules' own formulas -/

/-- `bit(B, i)` as R51 writes it: `(B[i div 8] div 2^(7 - (i mod 8))) mod 2`. -/
def bitNat (B : Bytes) (i : Nat) : Nat := (B.getD (i / 8) 0).toNat / 2 ^ (7 - i % 8) % 2

/-- Two buffers of one length agree on every bit outside `[s, s+n)` (R57). -/
def sameOutside (A B : Bytes) (s n : Nat) : Prop :=
  A.length = B.length ∧ ∀ i, i < 8 * B.length → (i < s ∨ s + n ≤ i) → bitNat A i = bitNat B i

/-- `BitsRead(B, s, n)` as R52 writes it: the sum of `bit(B, s+j) * 2^(n-1-j)`. -/
def bitSum (B : Bytes) (s n : Nat) : Nat := ∑ j ∈ Finset.range n, bitNat B (s + j) * 2 ^ (n - 1 - j)

/-- The buffer `A` is `B` with the `n` bits from `s` replaced by the `n`-bit number `v`, the first bit most
significant (R57). -/
def isWritten (A B : Bytes) (s n v : Nat) : Prop :=
  sameOutside A B s n ∧ ∀ j < n, bitNat A (s + j) = v / 2 ^ (n - 1 - j) % 2

/-- `O` is the blob image of the `L` bits of `B` from `s` (R60): `ceil8(L)` bytes, pad bits 0, bits right-justified. -/
def isImage (O B : Bytes) (s L : Nat) : Prop :=
  O.length = ceil8 L ∧ (∀ i < 8 * ceil8 L - L, bitNat O i = 0) ∧
  ∀ j < L, bitNat O (8 * ceil8 L - L + j) = bitNat B (s + j)

/-- The value `x` is what a field's bit range of `B` reads as (R161): the unsigned number of the bits, never
sign-extended, or the blob image. -/
def FieldDescriptor.readsAs (f : FieldDescriptor) (B : Bytes) : Value → Prop
  | .int v  => (∃ nw, f.valueKind = .unsignedInteger nw) ∧ v.toNat = bitSum B f.bitOffset f.bitWidth
  | .blob O => f.valueKind = .byteBlob ∧ isImage O B f.bitOffset f.bitWidth

/-- The number a value stores in a field of `w` bits (R186): `trunc_w(v)` or `trunc_w(be_val(O))`. -/
def storedNat (w : Nat) : Value → Nat
  | .int v  => v.toNat % 2 ^ w
  | .blob O => beVal O % 2 ^ w

/-- The value a stored value decodes to (R167, R189): an integer reduced to the field's width, a blob image with its
pad bits cleared (R137). -/
def reducedValue (w : Nat) : Value → Value
  | .int v  => .int (BitVec.ofNat 128 (v.toNat % 2 ^ w))
  | .blob O => .blob (beBytes (beVal O % 2 ^ w) (ceil8 w))

/-- A value that a field takes (R160, R163, R164): its kind, the byte length of a blob, and in strict mode an integer
that fits. -/
def FieldDescriptor.takes (strict : Bool) (f : FieldDescriptor) : Value → Prop
  | .int v  => (∃ nw, f.valueKind = .unsignedInteger nw) ∧ (strict = true → v.toNat < 2 ^ f.bitWidth)
  | .blob O => f.valueKind = .byteBlob ∧ O.length = ceil8 f.bitWidth

/-- A value that a field returns unchanged (R168): an integer that fits, a blob of the right length whose pad bits
are 0. -/
def FieldDescriptor.keeps (f : FieldDescriptor) : Value → Prop
  | .int v  => (∃ nw, f.valueKind = .unsignedInteger nw) ∧ v.toNat < 2 ^ f.bitWidth
  | .blob O => f.valueKind = .byteBlob ∧ O.length = ceil8 f.bitWidth ∧ ∀ i < blobPad f.bitWidth, bitNat O i = 0

/-- A value of the wrong kind for a field (R164). -/
def FieldDescriptor.wrongKind (f : FieldDescriptor) : Value → Prop
  | .int _  => f.valueKind = .byteBlob
  | .blob _ => ∃ nw, f.valueKind = .unsignedInteger nw

/-- A field spec list that BUILD accepts (R110, R111): no reserved kind code, not empty, no zero width, no integer
field wider than its native type, no name twice. -/
structure AcceptableSpecs (specs : List FieldSpec) : Prop where
  kinds    : ∀ f ∈ specs, f.kindCode.toNat < 6
  nonempty : specs ≠ []
  widths   : ∀ f ∈ specs, f.bitWidth ≠ 0
  native   : ∀ f ∈ specs, f.kindCode.toNat < 5 → f.bitWidth ≤ 8 * 2 ^ f.kindCode.toNat
  names    : (specs.map (·.name)).Nodup

/-! ## What a command answers -/

/-- The command is answered with `r`, and nothing else changes: not SS, not one of the HOST's buffers (R205 for an
error, R62 for a read). That the ports are at rest afterwards is log 2. -/
structure AnswersOnly (s t : State) (r : Response) : Prop where
  resp    : t.resp = some r
  ss      : t.ss = s.ss
  mem     : t.mem = s.mem
  pending : t.pending = s.pending
  ports   : t.ports = Ports.idle

/-- The command is answered with the buffer `B`, which the HOST gets back in the buffer it handed over; SS and every
other buffer of the HOST are unchanged (R25, R84). That the buffer is updated in place is log 3, where ENCODE's new buffer
goes is log 5, that the ports are at rest afterwards is log 2. -/
structure ReturnsBuffer (s t : State) (B : Bytes) : Prop where
  resp    : t.resp = some { Response.ok with buf := some B }
  stored  : t.mem.read s.ports.buf = B
  others  : ∀ h, h ≠ s.ports.buf → t.mem.read h = s.mem.read h
  ss      : t.ss = s.ss
  pending : t.pending = s.pending
  ports   : t.ports = Ports.idle

/-- The command fails with the error `e`: the response carries its code and name, and nothing changes (R205; the ports
at rest afterwards: log 2). -/
def failsWith (i : Instr) (s : State) (e : EngineError) : Prop :=
  ∃ t, exec i s = .next t ∧ AnswersOnly s t { status := e.status, ename := e.ename }

/-- A write of a bit range by one of the Bit Cursor's two write operations (R131, R133). -/
inductive RangeWrite where
  | bits (start count : Nat) (value : Val)
  | blob (start bitLength : Nat) (bytes : Bytes)

/-- The first bit index of the range. -/
def RangeWrite.first : RangeWrite → Nat
  | .bits s _ _ => s
  | .blob s _ _ => s

/-- The number of bits of the range. -/
def RangeWrite.size : RangeWrite → Nat
  | .bits _ n _ => n
  | .blob _ n _ => n

/-- The write on a buffer. -/
def RangeWrite.on (B : Bytes) : RangeWrite → Except EngineError Bytes
  | .bits s n v => writeBits B s n v
  | .blob s L O => writeBlob B s L O

/-- The field specs with every name renamed. -/
def renameSpecs (ρ : FieldName → FieldName) (specs : List FieldSpec) : List FieldSpec :=
  specs.map fun f => { f with name := ρ f.name }

/-- The schema with every name renamed. -/
def renameSchema (ρ : FieldName → FieldName) (sch : RegisterSchema) : RegisterSchema :=
  { sch with fields := sch.fields.map fun f => { f with name := ρ f.name } }

/-- The error with the name it carries renamed. -/
def renameError (ρ : FieldName → FieldName) : EngineError → EngineError
  | .zeroWidthField n      => .zeroWidthField (ρ n)
  | .nativeWidthTooSmall n => .nativeWidthTooSmall (ρ n)
  | .duplicateName n       => .duplicateName (ρ n)
  | .valueExceedsWidth n   => .valueExceedsWidth (ρ n)
  | .blobLengthMismatch n  => .blobLengthMismatch (ρ n)
  | .missingField n        => .missingField (ρ n)
  | .kindMismatch n        => .kindMismatch (ρ n)
  | .badKind n             => .badKind (ρ n)
  | e                      => e

/-! ## Invariants -/

/-- A response holds its map in canonical form (R29). -/
def Response.wf (r : Response) : Prop := ∀ R, r.rvals = some R → FieldValues.wf R

/-- The invariant of a run: SS is empty or holds a valid schema (R21, R23), and every map is in canonical form. -/
structure State.Inv (s : State) : Prop where
  schema  : ∀ sch, s.ss = some sch → sch.Valid
  mem     : s.mem.wf
  ports   : s.ports.wf
  resp    : ∀ r, s.resp = some r → r.wf
  pending : ∀ ev ∈ s.pending, ev.wf = true

/-- Between two commands no operand stands on the ports (R24, R33). -/
def State.Quiescent (s : State) : Prop := s.ports = Ports.idle

/-- The state in which a run begins whose HOST does `events` (R240). -/
def State.start (events : List HostEvent) : State := { State.reset with pending := events }

/-- The errors a command whose byte is legal may raise, complete (R203). -/
def mayRaise : Instr → List Status
  | .build    => [.badKind, .emptySchema, .zeroWidthField, .nativeWidthTooSmall, .duplicateName]
  | .rdbits   => [.badCount, .outOfBounds]
  | .wrbits   => [.badCount, .outOfBounds, .valueTooWide]
  | .rdblob   => [.outOfBounds]
  | .wrblob   => [.badBlobLength, .outOfBounds]
  | .fenc s   => [.noSchema, .badFieldIndex, .kindMismatch] ++ (if s then [.valueExceedsWidth] else []) ++
                 [.blobLengthMismatch, .outOfBounds]
  | .fdec     => [.noSchema, .badFieldIndex, .outOfBounds]
  | .encode s => [.noSchema, .missingField, .kindMismatch] ++ (if s then [.valueExceedsWidth] else []) ++
                 [.blobLengthMismatch]
  | .decode   => [.noSchema, .bufferTooShort]

end Sys2Proof.Machine
end

