-- ==== Sys2Proof/Certificates/Slice0/Obligations.lean ====
section
/-! DEFINITION. The statements for the provers. `R<n>` is a rule of spec/, `D<n>` a decision the
spec itself makes there (`92_eei_decisions.md`), `log <n>` a choice of this model. -/

open Sys2Proof Sys2Proof.Machine

/-! ## Command bytes, codes and written forms -/

/-- R81, R82: the eleven command bytes, written out bit by bit from R80 and the opcode table, decode to the commands
they stand for. -/
def Obligations.TableBytesDecode : Prop :=
  decodeByte 0b00000001 = .ok .build ∧ decodeByte 0b00000010 = .ok .rdbits ∧ decodeByte 0b00000011 = .ok .wrbits ∧
  decodeByte 0b00000100 = .ok .rdblob ∧ decodeByte 0b00000101 = .ok .wrblob ∧
  decodeByte 0b00000110 = .ok (.fenc false) ∧ decodeByte 0b00010110 = .ok (.fenc true) ∧
  decodeByte 0b00000111 = .ok .fdec ∧ decodeByte 0b00001000 = .ok (.encode false) ∧
  decodeByte 0b00011000 = .ok (.encode true) ∧ decodeByte 0b00001001 = .ok .decode

/-- R83 (D3): of the 256 command bytes exactly 11 are legal; any other is answered IllegalCommand, whatever its
operands are, and nothing changes. That the ports are at rest afterwards is the model's choice (log 2). -/
def Obligations.IllegalBytesAreRefused : Prop :=
  (∀ b : Byte, (∃ i, decodeByte b = .ok i) ↔
    b ∈ ([0x01, 0x02, 0x03, 0x04, 0x05, 0x06, 0x16, 0x07, 0x08, 0x18, 0x09] : List Byte)) ∧
  (∀ b : Byte, (¬ ∃ i, decodeByte b = .ok i) ↔
    (b.toNat / 32 ≠ 0 ∨ b.toNat % 16 = 0 ∨ 10 ≤ b.toNat % 16 ∨
      (b.toNat / 16 % 2 = 1 ∧ b.toNat % 16 ≠ 6 ∧ b.toNat % 16 ≠ 8))) ∧
  ∀ (s : State) (p : Ports) (rest : List HostEvent), s.pending = .command p :: rest →
    p.cmd ∉ ([0x01, 0x02, 0x03, 0x04, 0x05, 0x06, 0x16, 0x07, 0x08, 0x18, 0x09] : List Byte) →
    ∃ t, step s = .next t ∧ t.resp = some { status := .illegalCommand } ∧ t.ss = s.ss ∧ t.mem = s.mem ∧
      t.pending = rest ∧ t.ports = Ports.idle

/-- R80, R82, R83: a byte decodes to a command exactly when it is that command's byte: no two bytes name one command
and no bit of a byte is dropped. -/
def Obligations.CommandByteReadsBack : Prop :=
  ∀ (b : Byte) (i : Instr), decodeByte b = .ok i ↔ b = encodeInstr i

/-- R88: a written command assembles to one command byte and its operands, and reads back from them. -/
def Obligations.WrittenCommandReadsBack : Prop :=
  ∀ (buf : Nat) (a : AsmLine),
    disassemble (a.assemble buf) = some a ∧ decodeByte (a.assemble buf).cmd = .ok a.instr ∧ (a.assemble buf).buf = buf

/-- R86: the concrete form of a Value, tag 0 with the integer or tag 1 with a byte count and that many bytes. -/
def Obligations.ValueFormReadsBack : Prop :=
  (∀ x c, decodeValue c = some x ↔ c = encodeValue x) ∧
  (∀ v, encodeValue (.int v) = (0, .inl v)) ∧ ∀ o, encodeValue (.blob o) = (1, .inr (o.length, o))

/-- R85: codes 0 to 4 are integers of native width `8 * 2^code`, 5 is ByteBlob, 6 and 7 are reserved. -/
def Obligations.KindCodes : Prop :=
  (∀ c : BitVec 3, c.toNat ≤ 4 → ∃ nw, kindOfCode c = some (.unsignedInteger nw) ∧ nw.bits = 8 * 2 ^ c.toNat) ∧
  kindOfCode 5 = some .byteBlob ∧ kindOfCode 6 = none ∧ kindOfCode 7 = none ∧
  ∀ k c, kindOfCode c = some k ↔ c = codeOfKind k

/-- R87 (D4): status 0x00 is success alone, no two members share a code, and the high nibble is the error class. -/
def Obligations.StatusByteNibbles : Prop :=
  (∀ st : Status, st.code = 0 ↔ st = .success) ∧
  (∀ a b : Status, a.code = b.code → a = b) ∧
  (∀ st : Status, st.errorClass = none ↔ st = .success) ∧
  ∀ st : Status,
    (st.errorClass = some .schemaError → st.code.toNat / 16 = 1) ∧
    (st.errorClass = some .bitRangeError → st.code.toNat / 16 = 2) ∧
    (st.errorClass = some .fieldError → st.code.toNat / 16 = 3) ∧
    (st.errorClass = some .codecError → st.code.toNat / 16 = 4) ∧
    (st.errorClass = some .operandError → st.code.toNat / 16 = 5)

/-- R201: the code and the name each error puts in the response, for every name. -/
def Obligations.ErrorCodesAndNames : Prop :=
  ∀ n : FieldName,
    let out := fun (e : EngineError) => (e.response.statusByte, e.response.ename)
    out .emptySchema = (0x10, none) ∧ out (.zeroWidthField n) = (0x11, some n) ∧
    out (.nativeWidthTooSmall n) = (0x12, some n) ∧ out (.duplicateName n) = (0x13, some n) ∧
    out .outOfBounds = (0x20, none) ∧ out .valueTooWide = (0x21, none) ∧
    out (.valueExceedsWidth n) = (0x30, some n) ∧ out (.blobLengthMismatch n) = (0x31, some n) ∧
    out (.missingField n) = (0x32, some n) ∧ out .bufferTooShort = (0x40, none) ∧
    out .illegalCommand = (0x50, none) ∧ out .noSchema = (0x51, none) ∧ out .badFieldIndex = (0x52, none) ∧
    out .badCount = (0x53, none) ∧ out .badBlobLength = (0x54, none) ∧ out (.kindMismatch n) = (0x55, some n) ∧
    out (.badKind n) = (0x56, some n)

/-! ## The whole machine -/

/-- R36, R89, R240: when the HOST's next event is a command whose byte decodes to `i`, the step is `exec i` with that
command's operands on the ports and the event taken. -/
def Obligations.StepRunsTheCommand : Prop :=
  ∀ (s : State) (p : Ports) (rest : List HostEvent) (i : Instr), s.pending = .command p :: rest →
    decodeByte p.cmd = .ok i → step s = exec i { s with ports := p, pending := rest }

/-- R36, R238: the step function is total: every step, and every command in every state, ends in a next state, and a
command gives a response. -/
def Obligations.EveryStepAnswers : Prop :=
  (∀ s : State, ∃ t, step s = .next t) ∧
  ∀ (i : Instr) (s : State), ∃ t r, exec i s = .next t ∧ t.resp = some r

/-- R34: after reset there is no schema and the invariant of a run holds. That the ports are at rest and no response
has been given is the model's choice (log 2, log 9). -/
def Obligations.ResetMeetsInvariant : Prop :=
  State.reset.Inv ∧ State.reset.ss = none ∧ State.reset.Quiescent

/-- R23: the schema invariants hold of every value SS ever contains, and every map stays in canonical form (log 4, log
7): a step keeps the invariant from every state that has it, reachable or not. -/
def Obligations.StepKeepsInvariant : Prop :=
  ∀ s t : State, s.Inv → step s = .next t → t.Inv

/-- R240, R23: a run of any well-formed HOST events from reset never stops, takes its events one a step, and stays in
the invariant with no operand left on the ports (log 2). -/
def Obligations.EveryRunStaysSound : Prop :=
  ∀ (events : List HostEvent), (∀ ev ∈ events, ev.wf = true) → ∀ k,
    ∃ t, Host.Core.run core k (State.start events) = .next t ∧ State.Inv t ∧ State.Quiescent t ∧
      t.pending = events.drop k

/-- R21, R35, R118, R230: only a reset and a successful BUILD write the schema store, and they replace the whole of
it. -/
def Obligations.SchemaStoreWriters : Prop :=
  ∀ s t : State, step s = .next t → t.ss ≠ s.ss →
    (∃ rest, s.pending = .reset :: rest ∧ t.ss = none) ∨
    (∃ p rest sch, s.pending = .command p :: rest ∧ p.cmd = 0x01 ∧ buildSchema p.specs = .ok sch ∧ t.ss = some sch)

/-- R21: no command but FENC, FDEC, ENCODE and DECODE reads the schema store: the others answer alike whatever it
holds. -/
def Obligations.SchemaStoreReaders : Prop :=
  ∀ (i : Instr) (s t u : State) (a b : Option RegisterSchema), readsSchema i = false →
    exec i { s with ss := a } = .next t → exec i { s with ss := b } = .next u →
    t.resp = u.resp ∧ t.mem = u.mem ∧ t.pending = u.pending ∧ (i ≠ .build → t.ss = a ∧ u.ss = b)

/-- R84, R89: a port that R84 does not list for a command may hold any value without effect. For ENCODE the number of
the HOST buffer that receives the new buffer is the HOST's choice, not a port it reads (log 5). -/
def Obligations.UnusedPortsHaveNoEffect : Prop :=
  ∀ (i : Instr) (s : State) (p q : Ports), (∀ port ∈ portsRead i, samePort p q port) →
    (∀ strict, i = .encode strict → p.buf = q.buf) →
    exec i { s with ports := p } = exec i { s with ports := q }

/-- R24, R26, R33, R206: nothing of an earlier command, its operands or its response, good or bad, is seen by a later
one: a command's step depends on the schema store, the HOST's buffers and the command alone. -/
def Obligations.NoTraceOfEarlierCommands : Prop :=
  ∀ (s s' : State) (p : Ports) (rest : List HostEvent), s.pending = .command p :: rest → s'.pending = s.pending →
    s'.ss = s.ss → s'.mem = s.mem → step s' = step s

/-- R26, R84: on success STATUS is 0, ENAME none, and exactly the listed result ports are produced; on an error no
result port is produced. -/
def Obligations.ResponsePorts : Prop :=
  ∀ (i : Instr) (s t : State), exec i s = .next t → ∃ r, t.resp = some r ∧
    (r.statusByte = 0 → r.ename = none ∧ r.produced = portsProduced i) ∧ (r.statusByte ≠ 0 → r.produced = [])

/-- R205 (D20): an error changes nothing, whatever command byte and operands the HOST presents: SS and every buffer
stay, no result port is produced, the response is the code and the name of one of the errors. -/
def Obligations.ErrorsChangeNothing : Prop :=
  ∀ (s t : State) (p : Ports) (rest : List HostEvent) (r : Response), s.pending = .command p :: rest →
    step s = .next t → t.resp = some r → r.status ≠ .success →
    t.ss = s.ss ∧ t.mem = s.mem ∧ t.pending = rest ∧ r.produced = [] ∧
    ∃ e : EngineError, r.status = e.status ∧ r.ename = e.ename

/-- R203, R187, R188: with a schema store that holds what BUILD loads, each command raises only the errors of its row.
-/
def Obligations.CommandsRaiseOnlyTheirErrors : Prop :=
  ∀ (i : Instr) (s t : State) (r : Response), (∀ sch, s.ss = some sch → sch.Valid) → exec i s = .next t →
    t.resp = some r → r.status = .success ∨ r.status ∈ mayRaise i

/-- The frame of every command (R21, R25, R57, R62; the ranges are those of R131, R133 and R160): the HOST's coming
events and, but for BUILD, the schema store are unchanged; a command that does not write a buffer changes no byte of
any; one that does changes no buffer but the one numbered BUF, which WRBITS, WRBLOB and FENC are handed, and which for
ENCODE is where the model puts the new buffer (log 5); WRBITS, WRBLOB and FENC change no bit outside the range they
store to and keep the buffer's length, in place (log 3). -/
def Obligations.FrameOfEveryCommand : Prop :=
  ∀ (i : Instr) (s t : State), exec i s = .next t →
    t.pending = s.pending ∧ (i ≠ .build → t.ss = s.ss) ∧
    (i ∈ [Instr.build, .rdbits, .rdblob, .fdec, .decode] → t.mem = s.mem) ∧
    (∀ h, h ≠ s.ports.buf → t.mem.read h = s.mem.read h) ∧
    (i = .wrbits ∨ i = .wrblob →
      sameOutside (t.mem.read s.ports.buf) (s.mem.read s.ports.buf) s.ports.start s.ports.len) ∧
    (∀ strict f, i = .fenc strict → addressedField s.ss s.ports.fidx = .ok f →
      sameOutside (t.mem.read s.ports.buf) (s.mem.read s.ports.buf) f.bitOffset f.bitWidth)

/-- R62, R206: repeating a command on what it left, with the same operands, gives the same response and changes
nothing more: reads have no side effect, writes are idempotent, a failed command fails the same way. -/
def Obligations.RepeatingChangesNothing : Prop :=
  ∀ (i : Instr) (s t u : State), exec i s = .next t → exec i { t with ports := s.ports } = .next u →
    u.resp = t.resp ∧ u.ss = t.ss ∧ ∀ h, u.mem.read h = t.mem.read h

/-- R34 (D10), R230: after reset SS is none; a reset between commands empties it and touches no buffer of the HOST. -/
def Obligations.ResetEmptiesTheStore : Prop :=
  State.reset.ss = none ∧
  ∀ (s : State) (rest : List HostEvent), s.pending = .reset :: rest →
    ∃ t, step s = .next t ∧ t.ss = none ∧ t.mem = s.mem ∧ t.pending = rest

/-- R25, R231, R234 (log 1, log 10): a HOST that writes one of its buffers between commands changes that buffer alone;
a HOST that presents nothing changes nothing. -/
def Obligations.HostOwnsItsBuffers : Prop :=
  (∀ (s : State) (h : Nat) (B : Bytes) (rest : List HostEvent), s.pending = .buffer h B :: rest →
    ∃ t, step s = .next t ∧ t.mem.read h = B ∧ (∀ k, k ≠ h → t.mem.read k = s.mem.read k) ∧ t.ss = s.ss ∧
      t.resp = s.resp ∧ t.pending = rest) ∧
  ∀ s : State, s.pending = [] → step s = .next s

/-! ## Schema Model -/

/-- R112: BUILD loads a valid list whole, with every offset the sum of the widths before it and `totalBits` the sum of
all; an invalid list raises an error of BUILD and changes nothing. That the ports are at rest afterwards is the
model's choice (log 2). -/
def Obligations.BuildLoadsTheSchema : Prop :=
  ∀ s : State,
    (AcceptableSpecs s.ports.specs → ∃ t sch, exec .build s = .next t ∧ t.ss = some sch ∧
      sch.fields.length = s.ports.specs.length ∧
      (∀ k (spec : FieldSpec), s.ports.specs[k]? = some spec → ∃ f, sch.fields[k]? = some f ∧ f.name = spec.name ∧
        f.bitWidth = spec.bitWidth ∧ f.bitOffset = ((s.ports.specs.take k).map (·.bitWidth)).sum ∧
        some f.valueKind = kindOfCode spec.kindCode) ∧
      sch.totalBits = (s.ports.specs.map (·.bitWidth)).sum ∧
      t.resp = some { status := .success } ∧ t.mem = s.mem ∧ t.pending = s.pending ∧ t.ports = Ports.idle) ∧
    (¬ AcceptableSpecs s.ports.specs → ∃ e, e.status ∈ mayRaise .build ∧ failsWith .build s e)

/-- R113: the offsets BUILD stores are the prefix sums, the last field ends at `totalBits`, offsets rise strictly and
no two fields share a bit. -/
def Obligations.LayoutInvariant : Prop :=
  ∀ (specs : List FieldSpec) (sch : RegisterSchema), buildSchema specs = .ok sch →
    (∀ i f, sch.fields[i]? = some f → f.bitOffset = ((sch.fields.take i).map (·.bitWidth)).sum) ∧
    (∀ f, sch.fields.getLast? = some f → f.bitOffset + f.bitWidth = sch.totalBits) ∧
    (∀ f, sch.fields.head? = some f → f.bitOffset = 0) ∧
    ∀ (i j : Nat) (f g : FieldDescriptor), i < j → sch.fields[i]? = some f → sch.fields[j]? = some g →
      f.bitOffset < g.bitOffset ∧ f.bitOffset + f.bitWidth ≤ g.bitOffset

/-- R111 (D14): BUILD's checks by kind, in order, each reporting the field of lowest index. Taking this order, where
R111 lets a model report any error that applies, is the model's choice (log 12), and so are the ports at rest
afterwards (log 2). -/
def Obligations.BuildReportsTheFirstFault : Prop :=
  ∀ (s : State) (pre post : List FieldSpec) (f : FieldSpec),
    let all := fun (P : FieldSpec → Prop) => ∀ g ∈ s.ports.specs, P g
    let wide := fun (g : FieldSpec) => g.kindCode.toNat < 5 ∧ g.bitWidth > 8 * 2 ^ g.kindCode.toNat
    (s.ports.specs = pre ++ f :: post → 6 ≤ f.kindCode.toNat → (∀ g ∈ pre, g.kindCode.toNat < 6) →
      failsWith .build s (.badKind f.name)) ∧
    (s.ports.specs = [] → failsWith .build s .emptySchema) ∧
    (all (·.kindCode.toNat < 6) → s.ports.specs = pre ++ f :: post → f.bitWidth = 0 → (∀ g ∈ pre, g.bitWidth ≠ 0) →
      failsWith .build s (.zeroWidthField f.name)) ∧
    (all (·.kindCode.toNat < 6) → all (·.bitWidth ≠ 0) → s.ports.specs = pre ++ f :: post → wide f →
      (∀ g ∈ pre, ¬ wide g) → failsWith .build s (.nativeWidthTooSmall f.name)) ∧
    (all (·.kindCode.toNat < 6) → all (·.bitWidth ≠ 0) → all (fun g => ¬ wide g) →
      s.ports.specs = pre ++ f :: post → f.name ∈ pre.map (·.name) → (pre.map (·.name)).Nodup →
      failsWith .build s (.duplicateName f.name))

/-! ## Bit Cursor -/

/-- R130: RDBITS refuses a count outside 1 to 128, then a range past the end of the buffer, and otherwise returns the
bits as an unsigned integer below `2^count`, the first most significant, and changes nothing. The order of the checks
is R134's (D15), taken as fixed (log 12); that the ports are at rest afterwards is the model's choice (log 2). -/
def Obligations.RdbitsReturnsTheBits : Prop :=
  ∀ s : State,
    let B := s.mem.read s.ports.buf
    let n := s.ports.len
    (n < 1 ∨ 128 < n → failsWith .rdbits s .badCount) ∧
    (1 ≤ n → n ≤ 128 → 8 * B.length < s.ports.start + n → failsWith .rdbits s .outOfBounds) ∧
    (1 ≤ n → n ≤ 128 → s.ports.start + n ≤ 8 * B.length →
      ∃ t v, exec .rdbits s = .next t ∧ AnswersOnly s t { status := .success, rval := some v } ∧
        v.toNat = bitSum B s.ports.start n ∧ v.toNat < 2 ^ n)

/-- R131: WRBITS refuses a bad count, then a range past the end, then a value with a bit at or above `count`, and
otherwise writes exactly the range. The order of the checks is R134's (D15), taken as fixed (log 12); that the HOST's
buffer is updated in place (log 3) and the ports are at rest afterwards (log 2) are the model's choices. -/
def Obligations.WrbitsWritesTheRange : Prop :=
  ∀ s : State,
    let B := s.mem.read s.ports.buf
    let n := s.ports.len
    (n < 1 ∨ 128 < n → failsWith .wrbits s .badCount) ∧
    (1 ≤ n → n ≤ 128 → 8 * B.length < s.ports.start + n → failsWith .wrbits s .outOfBounds) ∧
    (1 ≤ n → n ≤ 128 → s.ports.start + n ≤ 8 * B.length → 2 ^ n ≤ s.ports.val.toNat →
      failsWith .wrbits s .valueTooWide) ∧
    (1 ≤ n → n ≤ 128 → s.ports.start + n ≤ 8 * B.length → s.ports.val.toNat < 2 ^ n →
      ∃ t B', exec .wrbits s = .next t ∧ ReturnsBuffer s t B' ∧
        isWritten B' B s.ports.start n s.ports.val.toNat)

/-- R132, R60 (D11), R56 (D12): RDBLOB refuses a range past the end, and otherwise returns the right-justified image,
also as the big-endian bytes of the number RDBITS would read, and changes nothing. That the ports are at rest
afterwards is the model's choice (log 2). -/
def Obligations.RdblobReturnsTheImage : Prop :=
  ∀ s : State,
    let B := s.mem.read s.ports.buf
    let L := s.ports.len
    (8 * B.length < s.ports.start + L → failsWith .rdblob s .outOfBounds) ∧
    (s.ports.start + L ≤ 8 * B.length →
      ∃ t O, exec .rdblob s = .next t ∧ AnswersOnly s t { status := .success, rblob := some O } ∧
        isImage O B s.ports.start L ∧ O = beBytes (bitSum B s.ports.start L) (ceil8 L))

/-- R133 (D17), R56 (D12): WRBLOB refuses an image of the wrong length, then a range past the end, and otherwise
writes the low `bitLength` bits of the image, whatever its pad bits are, and no other bit. The order of the checks is
R134's (D15), taken as fixed (log 12); that the HOST's buffer is updated in place (log 3) and the ports are at rest
afterwards (log 2) are the model's choices. -/
def Obligations.WrblobWritesTheRange : Prop :=
  ∀ s : State,
    let B := s.mem.read s.ports.buf
    let L := s.ports.len
    let O := s.ports.blob
    (O.length ≠ ceil8 L → failsWith .wrblob s .badBlobLength) ∧
    (O.length = ceil8 L → 8 * B.length < s.ports.start + L → failsWith .wrblob s .outOfBounds) ∧
    (O.length = ceil8 L → s.ports.start + L ≤ 8 * B.length →
      ∃ t B', exec .wrblob s = .next t ∧ ReturnsBuffer s t B' ∧ sameOutside B' B s.ports.start L ∧
        (∀ j < L, bitNat B' (s.ports.start + j) = bitNat O (8 * ceil8 L - L + j)) ∧
        isWritten B' B s.ports.start L (beVal O % 2 ^ L))

/-- R53: a byte-aligned read of whole bytes is the big-endian number of the bytes it covers. -/
def Obligations.AlignedReadIsBigEndian : Prop :=
  ∀ (B : Bytes) (k m : Nat), k + m ≤ B.length → bitsRead B (8 * k) (8 * m) = beVal ((B.drop k).take m)

/-- R137: what a successful WRBITS or WRBLOB wrote, RDBITS or RDBLOB reads back from the same range; an image comes
back with its pad bits cleared, equal to the one written exactly when they were 0. -/
def Obligations.ReadAfterWrite : Prop :=
  ∀ (s t : State) (r : Response) (q : Ports), t.resp = some r → r.status = .success →
    q.buf = s.ports.buf → q.start = s.ports.start → q.len = s.ports.len →
    (exec .wrbits s = .next t →
      ∃ u, exec .rdbits { t with ports := q } = .next u ∧ u.resp = some { status := .success, rval := some s.ports.val }) ∧
    (exec .wrblob s = .next t →
      ∃ u O', exec .rdblob { t with ports := q } = .next u ∧
        u.resp = some { status := .success, rblob := some O' } ∧
        O' = beBytes (beVal s.ports.blob % 2 ^ s.ports.len) (ceil8 s.ports.len) ∧
        (O' = s.ports.blob ↔ ∀ i < 8 * ceil8 s.ports.len - s.ports.len, bitNat s.ports.blob i = 0))

/-- R138: writing back what was read changes nothing; writes to disjoint ranges commute; a read is unaffected by a
write to a disjoint range. -/
def Obligations.WriteAfterReadAndDisjointRanges : Prop :=
  (∀ B s n v, readBits B s n = .ok v → writeBits B s n v = .ok B) ∧
  (∀ B s L O, readBlob B s L = .ok O → writeBlob B s L O = .ok B) ∧
  (∀ (B B1 B12 : Bytes) (w1 w2 : RangeWrite),
    w1.first + w1.size ≤ w2.first ∨ w2.first + w2.size ≤ w1.first → w1.on B = .ok B1 → w2.on B1 = .ok B12 →
    ∃ B2, w2.on B = .ok B2 ∧ w1.on B2 = .ok B12) ∧
  (∀ (B B1 : Bytes) (w : RangeWrite) (s n : Nat),
    w.first + w.size ≤ s ∨ s + n ≤ w.first → w.on B = .ok B1 →
    readBits B1 s n = readBits B s n ∧ readBlob B1 s n = readBlob B s n)

/-- R139: a range read as one value is its two halves joined, the earlier half more significant. -/
def Obligations.ReadsConcatenate : Prop :=
  ∀ (B : Bytes) (s n1 n2 : Nat), s + n1 + n2 ≤ 8 * B.length →
    bitsRead B s (n1 + n2) = bitsRead B s n1 * 2 ^ n2 + bitsRead B (s + n1) n2 ∧
    bitsRead B s (n1 + n2) = bitSum B s (n1 + n2)

/-! ## Field Codec -/

/-- R162, R182 (D18): with no schema loaded FENC, FDEC, ENCODE and DECODE raise NoSchema, before any other check; with
one, FENC and FDEC raise BadFieldIndex when the index is not below the number of fields. The order is taken as fixed
(log 12); that the ports are at rest afterwards is the model's choice (log 2). -/
def Obligations.SchemaAndIndexChecks : Prop :=
  ∀ s : State,
    (s.ss = none → ∀ i, readsSchema i = true → failsWith i s .noSchema) ∧
    (∀ sch, s.ss = some sch → sch.fields.length ≤ s.ports.fidx →
      (∀ strict, failsWith (.fenc strict) s .badFieldIndex) ∧ failsWith .fdec s .badFieldIndex)

/-- R160, R163 (D8, D9), R164 (D19): FENC of the addressed field: wrong kind, then too wide (strict only) or wrong
blob length, then past the end of the buffer, and otherwise the value's stored bits in the field's range and no other
bit changed. The order of the checks is R160's, taken as fixed (log 12); that the HOST's buffer is updated in place
(log 3) and the ports are at rest afterwards (log 2) are the model's choices. -/
def Obligations.FencStoresTheField : Prop :=
  ∀ (s : State) (sch : RegisterSchema) (f : FieldDescriptor) (strict : Bool),
    s.ss = some sch → sch.fields[s.ports.fidx]? = some f →
    let B := s.mem.read s.ports.buf
    let w := f.bitWidth
    (f.wrongKind s.ports.fval → failsWith (.fenc strict) s (.kindMismatch f.name)) ∧
    (∀ v nw, s.ports.fval = .int v → f.valueKind = .unsignedInteger nw → strict = true → 2 ^ w ≤ v.toNat →
      failsWith (.fenc strict) s (.valueExceedsWidth f.name)) ∧
    (∀ O, s.ports.fval = .blob O → f.valueKind = .byteBlob → O.length ≠ ceil8 w →
      failsWith (.fenc strict) s (.blobLengthMismatch f.name)) ∧
    (f.takes strict s.ports.fval → 8 * B.length < f.bitOffset + w → failsWith (.fenc strict) s .outOfBounds) ∧
    (f.takes strict s.ports.fval → f.bitOffset + w ≤ 8 * B.length →
      ∃ t B', exec (.fenc strict) s = .next t ∧ ReturnsBuffer s t B' ∧
        isWritten B' B f.bitOffset w (storedNat w s.ports.fval))

/-- R161: FDEC of the addressed field: past the end of the buffer, and otherwise the field's value, an integer
zero-extended or a blob image, with nothing changed. That the ports are at rest afterwards is the model's choice (log
2). -/
def Obligations.FdecReturnsTheField : Prop :=
  ∀ (s : State) (sch : RegisterSchema) (f : FieldDescriptor), s.ss = some sch → sch.Valid →
    sch.fields[s.ports.fidx]? = some f →
    let B := s.mem.read s.ports.buf
    (8 * B.length < f.bitOffset + f.bitWidth → failsWith .fdec s .outOfBounds) ∧
    (f.bitOffset + f.bitWidth ≤ 8 * B.length →
      ∃ t x, exec .fdec s = .next t ∧ AnswersOnly s t { status := .success, rfval := some x } ∧ f.readsAs B x)

/-- R166: for an integer field of a valid schema the encode path is WRBITS of the truncated value, in which the
cursor's width and count checks cannot fire. -/
def Obligations.FencIsWrbitsOfTheTruncatedValue : Prop :=
  ∀ (sch : RegisterSchema) (f : FieldDescriptor) (nw : NativeWidth) (B : Bytes) (v : Val), sch.Valid →
    f ∈ sch.fields → f.valueKind = .unsignedInteger nw →
    let t := BitVec.ofNat 128 (v.toNat % 2 ^ f.bitWidth)
    t.toNat = v.toNat % 2 ^ f.bitWidth ∧
    encodeField false f B (.int v) = writeBits B f.bitOffset f.bitWidth t ∧
    writeBits B f.bitOffset f.bitWidth t ≠ .error .valueTooWide ∧
    writeBits B f.bitOffset f.bitWidth t ≠ .error .badCount

/-- R167: a non-strict FENC stores only the low `bitWidth` bits; FDEC of that field returns exactly the truncated
value. -/
def Obligations.TruncationLaw : Prop :=
  ∀ (s t : State) (r : Response) (sch : RegisterSchema) (f : FieldDescriptor) (v : Val) (q : Ports),
    s.ss = some sch → sch.fields[s.ports.fidx]? = some f → s.ports.fval = .int v →
    exec (.fenc false) s = .next t → t.resp = some r → r.status = .success →
    q.buf = s.ports.buf → q.fidx = s.ports.fidx →
    ∃ u x, exec .fdec { t with ports := q } = .next u ∧
      u.resp = some { status := .success, rfval := some (.int x) } ∧ x.toNat = v.toNat % 2 ^ f.bitWidth

/-- R168: after a successful FENC, FDEC of that field succeeds and returns the value itself if the field keeps it, and
every other field reads as before. -/
def Obligations.FieldRoundTrip : Prop :=
  ∀ (s t : State) (r : Response) (sch : RegisterSchema) (f : FieldDescriptor) (strict : Bool),
    s.ss = some sch → sch.Valid → sch.fields[s.ports.fidx]? = some f →
    exec (.fenc strict) s = .next t → t.resp = some r → r.status = .success →
    (∀ q : Ports, q.buf = s.ports.buf → q.fidx = s.ports.fidx →
      ∃ u y, exec .fdec { t with ports := q } = .next u ∧ u.resp = some { status := .success, rfval := some y } ∧
        y = reducedValue f.bitWidth s.ports.fval ∧ (f.keeps s.ports.fval → y = s.ports.fval)) ∧
    (∀ (q : Ports) (u : State) (y : Value), q.buf = s.ports.buf → q.fidx ≠ s.ports.fidx →
      exec .fdec { s with ports := q } = .next u → u.resp = some { status := .success, rfval := some y } →
      ∃ u', exec .fdec { t with ports := q } = .next u' ∧ u'.resp = some { status := .success, rfval := some y })

/-! ## Register Codec -/

/-- R180, R185: ENCODE of values that every field takes succeeds: a new buffer of exactly `ceil8(T)` bytes, and
nothing else changed. That the HOST receives it as buffer number BUF (log 5) and that the ports are at rest afterwards
(log 2) are the model's choices. -/
def Obligations.EncodeBuildsTheBuffer : Prop :=
  ∀ (s : State) (sch : RegisterSchema) (strict : Bool), s.ss = some sch → sch.Valid →
    (∀ f ∈ sch.fields, ∃ x, valueOf s.ports.vals f.name = some x ∧ f.takes strict x) →
    ∃ t B, exec (.encode strict) s = .next t ∧ ReturnsBuffer s t B ∧ B.length = ceil8 sch.totalBits ∧
      (∀ f ∈ sch.fields, ∀ x, valueOf s.ports.vals f.name = some x →
        bitSum B f.bitOffset f.bitWidth = storedNat f.bitWidth x) ∧
      ∀ i, sch.totalBits ≤ i → i < 8 * B.length → bitNat B i = 0

/-- R180, R183, R207: ENCODE reports the error of the first field in schema order that has one, missing before wrong
kind before too wide or wrong length. The order is taken as fixed (log 12); that the ports are at rest afterwards is
the model's choice (log 2). -/
def Obligations.EncodeReportsTheFirstFailure : Prop :=
  ∀ (s : State) (sch : RegisterSchema) (strict : Bool) (pre post : List FieldDescriptor) (f : FieldDescriptor),
    s.ss = some sch → sch.Valid → sch.fields = pre ++ f :: post →
    (∀ g ∈ pre, ∃ x, valueOf s.ports.vals g.name = some x ∧ g.takes strict x) →
    (valueOf s.ports.vals f.name = none → failsWith (.encode strict) s (.missingField f.name)) ∧
    (∀ x, valueOf s.ports.vals f.name = some x → f.wrongKind x →
      failsWith (.encode strict) s (.kindMismatch f.name)) ∧
    (∀ v nw, valueOf s.ports.vals f.name = some (.int v) → f.valueKind = .unsignedInteger nw → strict = true →
      2 ^ f.bitWidth ≤ v.toNat → failsWith (.encode strict) s (.valueExceedsWidth f.name)) ∧
    (∀ O, valueOf s.ports.vals f.name = some (.blob O) → f.valueKind = .byteBlob → O.length ≠ ceil8 f.bitWidth →
      failsWith (.encode strict) s (.blobLengthMismatch f.name))

/-- R185, R186: the buffer ENCODE returns has exactly `ceil8(T)` bytes and is the concatenation of the stored bit
strings and zero pad bits; as one number it is the sum of the stored numbers at their places. -/
def Obligations.EncodedBufferAsANumber : Prop :=
  ∀ (s t : State) (sch : RegisterSchema) (strict : Bool) (B : Bytes), s.ss = some sch → sch.Valid →
    exec (.encode strict) s = .next t → t.resp = some { status := .success, buf := some B } →
    let T := sch.totalBits
    let stored := fun (f : FieldDescriptor) =>
      storedNat f.bitWidth ((valueOf s.ports.vals f.name).getD (.int 0))
    B.length = ceil8 T ∧
    (∀ f ∈ sch.fields, ∃ x, valueOf s.ports.vals f.name = some x ∧
      bitsRead B f.bitOffset f.bitWidth = storedNat f.bitWidth x) ∧
    bitsRead B T (8 * ceil8 T - T) = 0 ∧
    beVal B = (sch.fields.map fun f => stored f * 2 ^ (T - f.bitOffset - f.bitWidth)).sum * 2 ^ (8 * ceil8 T - T)

/-- R180, R204: entries of VALS that name no field have no effect: ENCODE answers alike for two maps that give the
schema's names the same values. -/
def Obligations.EncodeLooksUpSchemaNamesOnly : Prop :=
  ∀ (s : State) (sch : RegisterSchema) (strict : Bool) (vals : FieldValues), s.ss = some sch →
    (∀ f ∈ sch.fields, valueOf vals f.name = valueOf s.ports.vals f.name) →
    exec (.encode strict) { s with ports := { s.ports with vals := vals } } = exec (.encode strict) s

/-- R181: DECODE refuses a buffer shorter than `ceil8(T)`, and otherwise returns the mapping from exactly the schema's
names to the fields' values, with nothing changed. That the mapping is a list in canonical form (log 7) and that the
ports are at rest afterwards (log 2) are the model's choices. -/
def Obligations.DecodeReturnsEveryField : Prop :=
  ∀ (s : State) (sch : RegisterSchema), s.ss = some sch → sch.Valid →
    let B := s.mem.read s.ports.buf
    (B.length < ceil8 sch.totalBits → failsWith .decode s .bufferTooShort) ∧
    (ceil8 sch.totalBits ≤ B.length →
      ∃ t R, exec .decode s = .next t ∧ AnswersOnly s t { status := .success, rvals := some R } ∧ FieldValues.wf R ∧
        (∀ f ∈ sch.fields, ∃ x, valueOf R f.name = some x ∧ f.readsAs B x) ∧
        ∀ nm, nm ∉ sch.fields.map (·.name) → valueOf R nm = none)

/-- R59, R184: DECODE depends on the bits below `T` and on the buffer being long enough alone: pad bits and trailing
bytes are ignored. -/
def Obligations.DecodeIgnoresPadAndTrailer : Prop :=
  ∀ (s : State) (sch : RegisterSchema) (A : Bytes), s.ss = some sch → sch.Valid →
    let B := s.mem.read s.ports.buf
    ceil8 sch.totalBits ≤ A.length → ceil8 sch.totalBits ≤ B.length →
    (∀ i < sch.totalBits, bitNat A i = bitNat B i) →
    ∀ t u, exec .decode s = .next t → exec .decode { s with mem := s.mem.write s.ports.buf A } = .next u →
      u.resp = t.resp

/-- R189: DECODE of what ENCODE returned gives every field's value reduced to its field, for exactly the schema's
names; it gives back the values themselves exactly when every field keeps its value. -/
def Obligations.RegisterRoundTrip : Prop :=
  ∀ (s t : State) (sch : RegisterSchema) (strict : Bool) (B : Bytes) (q : Ports), s.ss = some sch → sch.Valid →
    exec (.encode strict) s = .next t → t.resp = some { status := .success, buf := some B } →
    q.buf = s.ports.buf →
    ∃ u R, exec .decode { t with ports := q } = .next u ∧ u.resp = some { status := .success, rvals := some R } ∧
      (∀ f ∈ sch.fields, ∃ x, valueOf s.ports.vals f.name = some x ∧
        valueOf R f.name = some (reducedValue f.bitWidth x)) ∧
      (∀ nm, nm ∉ sch.fields.map (·.name) → valueOf R nm = none) ∧
      ((∀ f ∈ sch.fields, valueOf R f.name = valueOf s.ports.vals f.name) ↔
        ∀ f ∈ sch.fields, ∀ x, valueOf s.ports.vals f.name = some x → f.keeps x)

/-- R191: ENCODE of what DECODE returned succeeds, strict or not, and returns the first `ceil8(T)` bytes of the buffer
with the pad bits cleared. -/
def Obligations.DecodeThenEncode : Prop :=
  ∀ (s t : State) (sch : RegisterSchema) (strict : Bool) (R : FieldValues) (q : Ports), s.ss = some sch → sch.Valid →
    exec .decode s = .next t → t.resp = some { status := .success, rvals := some R } → q.vals = R →
    ∃ u B', exec (.encode strict) { t with ports := q } = .next u ∧
      u.resp = some { status := .success, buf := some B' } ∧ B'.length = ceil8 sch.totalBits ∧
      (∀ i < sch.totalBits, bitNat B' i = bitNat (s.mem.read s.ports.buf) i) ∧
      ∀ i, sch.totalBits ≤ i → i < 8 * B'.length → bitNat B' i = 0

/-- R190: the document's schema of widths 3, 13, 23, 35, 67 and a 479-bit blob at bit 141: every 60-byte image whose
pad bit is 0 comes back exactly, and one with it set comes back with it cleared. -/
def Obligations.MisalignedBlobRoundTrip : Prop :=
  let name := fun k => FieldName.mk k
  let specs : List FieldSpec := [⟨name 0, 3, 0⟩, ⟨name 1, 13, 1⟩, ⟨name 2, 23, 2⟩, ⟨name 3, 35, 3⟩, ⟨name 4, 67, 4⟩,
    ⟨name 5, 479, 5⟩]
  ∃ sch, buildSchema specs = .ok sch ∧ sch.fields.map (·.bitOffset) = [0, 3, 16, 39, 74, 141] ∧ sch.totalBits = 620 ∧
    ∀ (v0 v1 v2 v3 v4 : Val) (O : Bytes), O.length = 60 →
      ∃ B R, encodeRegister false sch [(name 0, .int v0), (name 1, .int v1), (name 2, .int v2), (name 3, .int v3),
          (name 4, .int v4), (name 5, .blob O)] = .ok B ∧ B.length = 78 ∧ decodeRegister sch B = .ok R ∧
        (bitNat O 0 = 0 → valueOf R (name 5) = some (.blob O)) ∧
        valueOf R (name 5) = some (.blob (beBytes (beVal O % 2 ^ 479) 60))

/-- D7, R7: only equality of names matters: renaming them by an injective map renames what BUILD loads or reports,
what ENCODE reports and what DECODE returns, and changes no bit (log 6). -/
def Obligations.NamesMatterUpToEquality : Prop :=
  ∀ (ρ : FieldName → FieldName), Function.Injective ρ →
    (∀ specs, buildSchema (renameSpecs ρ specs) =
      match buildSchema specs with
      | .error e => .error (renameError ρ e)
      | .ok sch  => .ok (renameSchema ρ sch)) ∧
    (∀ (strict : Bool) (sch : RegisterSchema) (vals vals' : FieldValues),
      (∀ f ∈ sch.fields, valueOf vals' (ρ f.name) = valueOf vals f.name) →
      encodeRegister strict (renameSchema ρ sch) vals' =
        match encodeRegister strict sch vals with
        | .error e => .error (renameError ρ e)
        | .ok B    => .ok B) ∧
    (∀ (sch : RegisterSchema) (B : Bytes) (R : FieldValues), decodeRegister sch B = .ok R →
      ∃ R', decodeRegister (renameSchema ρ sch) B = .ok R' ∧ ∀ nm, valueOf R' (ρ nm) = valueOf R nm)
end

