-- ==== Sys2Proof/Laws/Bits.lean ====
section
/-! SUPPORT. Bits of byte sequences: what each operation of Machine/Ops.lean does to one bit, and that a byte
sequence is its length and its bits. -/

namespace Sys2Proof.Machine

/-! ## Numbers from digits -/

theorem bitsValue_lt (f : Nat → Bool) (n : Nat) : bitsValue f n < 2 ^ n := by
  induction n with
  | zero => simp [bitsValue]
  | succ n ih =>
    have : (f n).toNat ≤ 1 := Bool.toNat_le _
    simp only [bitsValue, Nat.pow_succ]
    omega

theorem bitsValue_congr {f g : Nat → Bool} {n : Nat} (h : ∀ j < n, f j = g j) : bitsValue f n = bitsValue g n := by
  induction n with
  | zero => rfl
  | succ n ih => simp only [bitsValue, ih fun j hj => h j (by omega), h n (by omega)]

theorem testBit_bitsValue (f : Nat → Bool) (n j : Nat) (h : j < n) : (bitsValue f n).testBit (n - 1 - j) = f j := by
  induction n with
  | zero => omega
  | succ n ih =>
    by_cases hj : j = n
    · subst hj
      cases hf : f j <;> simp [bitsValue, hf, Nat.testBit_zero]
    · have e : n + 1 - 1 - j = (n - 1 - j) + 1 := by omega
      have hd : (2 * bitsValue f n + (f n).toNat) / 2 = bitsValue f n := by
        have : (f n).toNat ≤ 1 := Bool.toNat_le _
        omega
      rw [e, Nat.testBit_succ]
      simp only [bitsValue, hd]
      exact ih (by omega)

/-- A number below `2^n` is the number of its `n` digits. -/
theorem bitsValue_testBit (v n : Nat) : bitsValue (fun j => v.testBit (n - 1 - j)) n = v % 2 ^ n := by
  apply Nat.eq_of_testBit_eq
  intro i
  by_cases h : i < n
  · have := testBit_bitsValue (fun j => v.testBit (n - 1 - j)) n (n - 1 - i) (by omega)
    have e : n - 1 - (n - 1 - i) = i := by omega
    simp only [e] at this
    simp [this, h, Nat.testBit_mod_two_pow]
  · have := bitsValue_lt (fun j => v.testBit (n - 1 - j)) n
    rw [Nat.testBit_lt_two_pow (Nat.lt_of_lt_of_le this (Nat.pow_le_pow_right (by omega) (by omega)))]
    simp [h, Nat.testBit_mod_two_pow]

/-- Digits joined: the earlier part more significant. -/
theorem bitsValue_add (f : Nat → Bool) (m n : Nat) :
    bitsValue f (m + n) = bitsValue f m * 2 ^ n + bitsValue (fun j => f (m + j)) n := by
  induction n with
  | zero => simp [bitsValue]
  | succ n ih =>
    rw [← Nat.add_assoc]
    simp only [bitsValue, ih, Nat.pow_succ]
    ring

/-! ## Bits of a byte sequence -/

theorem byteOfBits_getLsbD (f : Nat → Bool) (j : Nat) (h : j < 8) : (byteOfBits f).getLsbD (7 - j) = f j := by
  have := testBit_bitsValue f 8 j h
  simp only [byteOfBits, BitVec.getLsbD_ofNat]
  simpa [show 7 - j < 8 by omega] using this

@[simp] theorem bytesOfBits_length (m : Nat) (f : Nat → Bool) : (bytesOfBits m f).length = m := by
  simp [bytesOfBits]

theorem bitAt_bytesOfBits (m : Nat) (f : Nat → Bool) (i : Nat) (h : i < 8 * m) : bitAt (bytesOfBits m f) i = f i := by
  have hk : i / 8 < m := by omega
  have hi : 8 * (i / 8) + i % 8 = i := by omega
  simp only [bitAt, bytesOfBits, List.getD_eq_getElem?_getD, List.getElem?_map, List.getElem?_range hk,
    Option.map_some, Option.getD_some]
  rw [byteOfBits_getLsbD _ _ (by omega), hi]

theorem bitAt_past (B : Bytes) (i : Nat) (h : bitLen B ≤ i) : bitAt B i = false := by
  have : B.length ≤ i / 8 := by simp only [bitLen] at h; omega
  simp [bitAt, List.getD_eq_getElem?_getD, List.getElem?_eq_none this]

/-- A byte sequence is its length and its bits. -/
theorem bytes_ext {A B : Bytes} (hl : A.length = B.length) (h : ∀ i < bitLen A, bitAt A i = bitAt B i) : A = B := by
  apply List.ext_getElem hl
  intro k hA hB
  apply BitVec.eq_of_getLsbD_eq
  intro j hj
  have := h (8 * k + (7 - j)) (by simp only [bitLen]; omega)
  have e1 : (8 * k + (7 - j)) / 8 = k := by omega
  have e2 : 7 - (8 * k + (7 - j)) % 8 = j := by omega
  simpa only [bitAt, e1, e2, List.getD_eq_getElem?_getD, List.getElem?_eq_getElem hA, List.getElem?_eq_getElem hB,
    Option.getD_some] using this

/-- `bitAt` is the number R51 gives. -/
theorem bitAt_toNat (B : Bytes) (i : Nat) : (bitAt B i).toNat = (B.getD (i / 8) 0).toNat / 2 ^ (7 - i % 8) % 2 := by
  simp only [bitAt, BitVec.getLsbD, Nat.testBit, Nat.shiftRight_eq_div_pow, Nat.one_and_eq_mod_two]
  generalize (B.getD (i / 8) 0).toNat / 2 ^ (7 - i % 8) = x
  rcases Nat.mod_two_eq_zero_or_one x with h | h <;> simp [h]

/-! ## Reading and writing a range -/

theorem bitsRead_lt (B : Bytes) (s n : Nat) : bitsRead B s n < 2 ^ n := bitsValue_lt _ _

theorem bitsRead_congr {A B : Bytes} {s n : Nat} (h : ∀ i, s ≤ i → i < s + n → bitAt A i = bitAt B i) :
    bitsRead A s n = bitsRead B s n :=
  bitsValue_congr fun j hj => h (s + j) (by omega) (by omega)

theorem testBit_bitsRead (B : Bytes) (s n j : Nat) (h : j < n) : (bitsRead B s n).testBit (n - 1 - j) = bitAt B (s + j) :=
  testBit_bitsValue _ _ _ h

@[simp] theorem bitsWrite_length (B : Bytes) (s n v : Nat) : (bitsWrite B s n v).length = B.length := by
  simp [bitsWrite]

theorem bitAt_bitsWrite_in {B : Bytes} {s n : Nat} (v j : Nat) (hb : s + n ≤ bitLen B) (hj : j < n) :
    bitAt (bitsWrite B s n v) (s + j) = v.testBit (n - 1 - j) := by
  have : s + j < 8 * B.length := by simp only [bitLen] at hb; omega
  simp [bitsWrite, bitAt_bytesOfBits _ _ _ this, hj]

theorem bitAt_bitsWrite_out (B : Bytes) (s n v i : Nat) (h : i < s ∨ s + n ≤ i) :
    bitAt (bitsWrite B s n v) i = bitAt B i := by
  by_cases hi : i < 8 * B.length
  · have : ¬ (s ≤ i ∧ i < s + n) := by omega
    simp [bitsWrite, bitAt_bytesOfBits _ _ _ hi, this]
  · rw [bitAt_past _ _ (by simp [bitLen]; omega), bitAt_past _ _ (by simp [bitLen]; omega)]

/-- A range reads back as the number written, reduced to the range's width. -/
theorem bitsRead_bitsWrite {B : Bytes} {s n : Nat} (v : Nat) (hb : s + n ≤ bitLen B) :
    bitsRead (bitsWrite B s n v) s n = v % 2 ^ n := by
  rw [← bitsValue_testBit]
  exact bitsValue_congr fun j hj => bitAt_bitsWrite_in v j hb hj

/-! ## Blob images -/

theorem blobPad_add (L : Nat) : blobPad L + L = 8 * ceil8 L := by
  simp only [blobPad, ceil8]; omega

theorem blobPad_lt (L : Nat) : blobPad L < 8 := by
  simp only [blobPad, ceil8]; omega

@[simp] theorem blobRead_length (B : Bytes) (s L : Nat) : (blobRead B s L).length = ceil8 L := by
  simp [blobRead]

theorem bitAt_blobRead_pad (B : Bytes) (s L i : Nat) (h : i < blobPad L) : bitAt (blobRead B s L) i = false := by
  have := blobPad_add L
  simp [blobRead, bitAt_bytesOfBits _ _ i (show i < 8 * ceil8 L by omega), h]

theorem bitAt_blobRead_in (B : Bytes) (s L j : Nat) (h : j < L) :
    bitAt (blobRead B s L) (blobPad L + j) = bitAt B (s + j) := by
  have := blobPad_add L
  simp [blobRead, bitAt_bytesOfBits _ _ (blobPad L + j) (show blobPad L + j < 8 * ceil8 L by omega)]

@[simp] theorem blobWrite_length (B : Bytes) (s L : Nat) (O : Bytes) : (blobWrite B s L O).length = B.length := by
  simp [blobWrite]

theorem bitAt_blobWrite_in {B : Bytes} {s L : Nat} (O : Bytes) (j : Nat) (hb : s + L ≤ bitLen B) (hj : j < L) :
    bitAt (blobWrite B s L O) (s + j) = bitAt O (blobPad L + j) := by
  have : s + j < 8 * B.length := by simp only [bitLen] at hb; omega
  simp [blobWrite, bitAt_bytesOfBits _ _ _ this, hj]

theorem bitAt_blobWrite_out (B : Bytes) (s L : Nat) (O : Bytes) (i : Nat) (h : i < s ∨ s + L ≤ i) :
    bitAt (blobWrite B s L O) i = bitAt B i := by
  by_cases hi : i < 8 * B.length
  · have : ¬ (s ≤ i ∧ i < s + L) := by omega
    simp [blobWrite, bitAt_bytesOfBits _ _ _ hi, this]
  · rw [bitAt_past _ _ (by simp [bitLen]; omega), bitAt_past _ _ (by simp [bitLen]; omega)]

/-! ## Zero bytes and big-endian numbers -/

@[simp] theorem zeros_length (m : Nat) : (zeros m).length = m := by simp [zeros]

@[simp] theorem bitAt_zeros (m i : Nat) : bitAt (zeros m) i = false := by
  by_cases h : i / 8 < m
  · simp [bitAt, zeros, List.getD_eq_getElem?_getD, h]
  · simp [bitAt, zeros, List.getD_eq_getElem?_getD, h]

theorem beVal_append (A B : Bytes) : beVal (A ++ B) = beVal A * 256 ^ B.length + beVal B := by
  have key : ∀ (B : Bytes) (a : Nat), B.foldl (fun acc b => 256 * acc + b.toNat) a
      = a * 256 ^ B.length + B.foldl (fun acc b => 256 * acc + b.toNat) 0 := by
    intro B
    induction B with
    | nil => intro a; simp
    | cons b rest ih =>
      intro a
      simp only [List.foldl_cons, List.length_cons]
      rw [ih (256 * a + b.toNat), ih (256 * 0 + b.toNat)]
      ring
  simp only [beVal, List.foldl_append]
  exact key B _

/-- A byte is the number of its eight bits, most significant first. -/
theorem bitsValue_byte (b : Byte) : bitsValue (fun j => b.getLsbD (7 - j)) 8 = b.toNat := by
  have h := bitsValue_testBit b.toNat 8
  have : b.toNat % 2 ^ 8 = b.toNat := Nat.mod_eq_of_lt b.isLt
  rw [this] at h
  exact h

/-- A byte sequence as a number is the number of all its bits (R53). -/
theorem beVal_eq_bitsRead (B : Bytes) : beVal B = bitsRead B 0 (bitLen B) := by
  induction B using List.reverseRecOn with
  | nil => simp [beVal, bitsRead, bitLen, bitsValue]
  | append_singleton A b ih =>
    have hl : bitLen (A ++ [b]) = bitLen A + 8 := by simp [bitLen]; omega
    rw [beVal_append, hl]
    simp only [bitsRead, bitsValue_add]
    have h1 : bitsValue (fun j => bitAt (A ++ [b]) (0 + j)) (bitLen A) = beVal A := by
      rw [ih, bitsRead]
      apply bitsValue_congr
      intro j hj
      have : j / 8 < A.length := by simp only [bitLen] at hj; omega
      simp [bitAt, List.getD_eq_getElem?_getD, List.getElem?_append_left this]
    have h2 : bitsValue (fun j => bitAt (A ++ [b]) (0 + (bitLen A + j))) 8 = b.toNat := by
      rw [← bitsValue_byte]
      apply bitsValue_congr
      intro j hj
      have e1 : (0 + (bitLen A + j)) / 8 = A.length := by simp only [bitLen]; omega
      have e2 : (0 + (bitLen A + j)) % 8 = j := by simp only [bitLen]; omega
      rw [bitAt, e1, e2]
      simp [List.getD_eq_getElem?_getD]
    have h3 : beVal [b] = b.toNat := by simp [beVal]
    rw [h1, h2, h3]
    norm_num

end Sys2Proof.Machine
end

