-- ==== Sys2Proof/Laws/Maps.lean ====
section
/-! SUPPORT. The HOST's buffers and FieldValues: reading after writing, and that every operation keeps the canonical
form. -/

namespace Sys2Proof.Machine

@[simp] theorem memory_wf_nil : Memory.wf [] := ⟨.nil, nofun⟩
@[simp] theorem fieldValues_wf_nil : FieldValues.wf [] := .nil
@[simp] theorem idle_wf : Ports.idle.wf := .nil

/-! ## The HOST's buffers -/

theorem Memory.read_put_same (m : Memory) (h : Nat) (B : Bytes) : (m.put h B).read h = B := by
  induction m with
  | nil => simp [Memory.put, Memory.read]
  | cons e rest ih =>
    obtain ⟨k, C⟩ := e
    simp only [Memory.put]
    split
    · simp [Memory.read]
    · split
      · simp [Memory.read]
      · rename_i h1 h2
        simpa [Memory.read, Ne.symm h2] using ih

theorem Memory.read_put_other (m : Memory) {h h' : Nat} (B : Bytes) (hne : h' ≠ h) :
    (m.put h B).read h' = m.read h' := by
  induction m with
  | nil => simp [Memory.put, Memory.read, hne.symm]
  | cons e rest ih =>
    obtain ⟨k, C⟩ := e
    simp only [Memory.put]
    split
    · simp [Memory.read, hne.symm]
    · split
      · rename_i _ h2
        subst h2
        simp [Memory.read, hne.symm]
      · simp only [Memory.read, ih]

theorem Memory.read_drop (m : Memory) (h h' : Nat) :
    Memory.read (m.filter fun e => e.1 ≠ h) h' = if h' = h then [] else m.read h' := by
  induction m with
  | nil => simp [Memory.read]
  | cons e rest ih =>
    obtain ⟨k, C⟩ := e
    by_cases hk : k = h
    · subst hk
      by_cases hh : h' = k
      · subst hh; simpa using ih
      · simpa [Memory.read, hh, Ne.symm hh] using ih
    · by_cases hh : k = h'
      · subst hh; simp [hk, Memory.read]
      · simpa [hk, Memory.read, hh] using ih

/-- A buffer reads back as what was written. -/
@[simp] theorem Memory.read_write_same (m : Memory) (h : Nat) (B : Bytes) : (m.write h B).read h = B := by
  unfold Memory.write
  split
  · rename_i hB; rw [Memory.read_drop]; simp [hB]
  · exact m.read_put_same h B

/-- A write leaves every other buffer alone. -/
theorem Memory.read_write_other (m : Memory) {h h' : Nat} (B : Bytes) (hne : h' ≠ h) :
    (m.write h B).read h' = m.read h' := by
  unfold Memory.write
  split
  · rw [Memory.read_drop]; simp [hne]
  · exact m.read_put_other B hne

theorem Memory.put_keys (m : Memory) (h : Nat) (B : Bytes) : ∀ e ∈ m.put h B, e = (h, B) ∨ e ∈ m := by
  induction m with
  | nil => simp [Memory.put]
  | cons e rest ih =>
    obtain ⟨k, C⟩ := e
    simp only [Memory.put]
    split
    · simp
    · split
      · simp only [List.mem_cons]; tauto
      · intro x hx
        rcases List.mem_cons.1 hx with rfl | hx
        · simp
        · rcases ih x hx with h | h <;> simp [h]

/-- Writing a buffer keeps the canonical form. -/
theorem Memory.write_wf {m : Memory} (hm : m.wf) (h : Nat) (B : Bytes) : (m.write h B).wf := by
  unfold Memory.write
  split
  · exact ⟨hm.1.filter _, fun e he => hm.2 e (List.mem_filter.1 he).1⟩
  · rename_i hB
    refine ⟨?_, fun e he => ?_⟩
    · have hs := hm.1
      clear hm
      induction m with
      | nil => simp [Memory.put]
      | cons e rest ih =>
        obtain ⟨k, C⟩ := e
        rw [List.pairwise_cons] at hs
        simp only [Memory.put]
        split
        · rename_i hlt
          refine List.pairwise_cons.2 ⟨fun x hx => ?_, List.pairwise_cons.2 hs⟩
          rcases List.mem_cons.1 hx with rfl | hx
          · exact hlt
          · exact Nat.lt_trans hlt (hs.1 x hx)
        · split
          · rename_i _ heq
            subst heq
            exact List.pairwise_cons.2 hs
          · rename_i h1 h2
            refine List.pairwise_cons.2 ⟨fun x hx => ?_, ih hs.2⟩
            rcases Memory.put_keys rest h B x hx with rfl | hx
            · show k < h; omega
            · exact hs.1 x hx
    · rcases Memory.put_keys m h B e he with rfl | he
      · exact hB
      · exact hm.2 e he

/-! ## FieldValues -/

/-- A name maps to the value set for it. -/
@[simp] theorem valueOf_setValue_same (vals : FieldValues) (nm : FieldName) (x : Value) :
    valueOf (setValue vals nm x) nm = some x := by
  induction vals with
  | nil => simp [setValue, valueOf]
  | cons e rest ih =>
    obtain ⟨k, y⟩ := e
    simp only [setValue]
    split
    · simp [valueOf]
    · split
      · simp [valueOf]
      · rename_i _ h2
        simpa [valueOf, Ne.symm h2] using ih

/-- Setting a value leaves every other name alone. -/
theorem valueOf_setValue_other (vals : FieldValues) {nm nm' : FieldName} (x : Value) (hne : nm' ≠ nm) :
    valueOf (setValue vals nm x) nm' = valueOf vals nm' := by
  induction vals with
  | nil => simp [setValue, valueOf, hne.symm]
  | cons e rest ih =>
    obtain ⟨k, y⟩ := e
    simp only [setValue]
    split
    · simp [valueOf, hne.symm]
    · split
      · rename_i _ h2
        subst h2
        simp [valueOf, hne.symm]
      · simp only [valueOf, ih]

theorem setValue_keys (vals : FieldValues) (nm : FieldName) (x : Value) :
    ∀ e ∈ setValue vals nm x, e = (nm, x) ∨ e ∈ vals := by
  induction vals with
  | nil => simp [setValue]
  | cons e rest ih =>
    obtain ⟨k, y⟩ := e
    simp only [setValue]
    split
    · simp
    · split
      · simp only [List.mem_cons]; tauto
      · intro z hz
        rcases List.mem_cons.1 hz with rfl | hz
        · simp
        · rcases ih z hz with h | h <;> simp [h]

/-- Setting a value keeps the canonical form. -/
theorem setValue_wf {vals : FieldValues} (hv : FieldValues.wf vals) (nm : FieldName) (x : Value) :
    FieldValues.wf (setValue vals nm x) := by
  induction vals with
  | nil => simp [setValue, FieldValues.wf]
  | cons e rest ih =>
    obtain ⟨k, y⟩ := e
    have hs := List.pairwise_cons.1 hv
    simp only [setValue]
    split
    · rename_i hlt
      refine List.pairwise_cons.2 ⟨fun z hz => ?_, hv⟩
      rcases List.mem_cons.1 hz with rfl | hz
      · exact hlt
      · exact Nat.lt_trans hlt (hs.1 z hz)
    · split
      · rename_i _ heq
        subst heq
        exact List.pairwise_cons.2 hs
      · rename_i h1 h2
        refine List.pairwise_cons.2 ⟨fun z hz => ?_, ih hs.2⟩
        rcases setValue_keys rest nm x z hz with rfl | hz
        · have : k.id ≠ nm.id := fun h => h2 (by cases k; cases nm; simp_all)
          show k.id < nm.id
          omega
        · exact hs.1 z hz

theorem valueOf_eq_none_of_lt {vals : FieldValues} {nm : FieldName} (h : ∀ e ∈ vals, nm.id < e.1.id) :
    valueOf vals nm = none := by
  induction vals with
  | nil => rfl
  | cons e rest ih =>
    obtain ⟨k, y⟩ := e
    have hk := h (k, y) (by simp)
    have : k ≠ nm := by rintro rfl; simp at hk
    simp only [valueOf, this, if_false]
    exact ih fun e he => h e (by simp [he])

/-- Two canonical maps that give every name the same value are equal (R29). -/
theorem fieldValues_ext {A B : FieldValues} (hA : FieldValues.wf A) (hB : FieldValues.wf B)
    (h : ∀ nm, valueOf A nm = valueOf B nm) : A = B := by
  induction A generalizing B with
  | nil =>
    cases B with
    | nil => rfl
    | cons e _ => obtain ⟨k, y⟩ := e; have := h k; simp [valueOf] at this
  | cons a A ih =>
    obtain ⟨ka, xa⟩ := a
    have sA := List.pairwise_cons.1 hA
    cases B with
    | nil => have := h ka; simp [valueOf] at this
    | cons b B =>
      obtain ⟨kb, xb⟩ := b
      have sB := List.pairwise_cons.1 hB
      have hk : ka = kb := by
        by_contra hne
        have ha := h ka
        have hb := h kb
        simp only [valueOf, if_true, if_neg hne, if_neg (Ne.symm hne)] at ha hb
        have hid : ka.id ≠ kb.id := fun h => hne (by cases ka; cases kb; simp_all)
        rcases Nat.lt_or_gt_of_ne hid with hlt | hlt
        · rw [valueOf_eq_none_of_lt (fun e he => Nat.lt_trans hlt (sB.1 e he))] at ha
          simp at ha
        · rw [valueOf_eq_none_of_lt (fun e he => Nat.lt_trans hlt (sA.1 e he))] at hb
          simp at hb
      subst hk
      have hx : xa = xb := by have := h ka; simpa [valueOf] using this
      subst hx
      rw [ih sA.2 sB.2 fun nm => ?_]
      by_cases hn : ka = nm
      · subst hn
        rw [valueOf_eq_none_of_lt sA.1, valueOf_eq_none_of_lt sB.1]
      · have := h nm
        simpa [valueOf, hn] using this

end Sys2Proof.Machine
end

