-- ==== Sys2Proof/Laws/Schema.lean ====
section
/-! SUPPORT. The layout of a schema: prefix sums by position, fields that do not overlap, and what BUILD's checks
and offsets give. -/

namespace Sys2Proof.Machine

@[simp] theorem widthSum_nil : widthSum [] = 0 := rfl
@[simp] theorem widthSum_cons (f : FieldDescriptor) (rest : List FieldDescriptor) :
    widthSum (f :: rest) = f.bitWidth + widthSum rest := by simp [widthSum]

/-- The offset of field `i` is the sum of the widths before it (R11, R113). -/
theorem prefixSums_offset {off : Nat} {fields : List FieldDescriptor} (h : prefixSums off fields) {i : Nat}
    {f : FieldDescriptor} (hf : fields[i]? = some f) : f.bitOffset = off + widthSum (fields.take i) := by
  induction fields generalizing off i with
  | nil => simp at hf
  | cons g rest ih =>
    cases i with
    | zero => simp at hf; subst hf; simp [h.1]
    | succ i =>
      have := ih h.2 (i := i) (by simpa using hf)
      simp [this]; omega

/-- Every field lies between the start and the end of the layout. -/
theorem prefixSums_bounds {off : Nat} {fields : List FieldDescriptor} (h : prefixSums off fields)
    {f : FieldDescriptor} (hf : f ∈ fields) : off ≤ f.bitOffset ∧ f.endBit ≤ off + widthSum fields := by
  induction fields generalizing off with
  | nil => simp at hf
  | cons g rest ih =>
    rcases List.mem_cons.1 hf with rfl | hf
    · simp only [widthSum_cons, FieldDescriptor.endBit, h.1]; omega
    · have := ih h.2 hf
      simp only [widthSum_cons]; omega

/-- An earlier field ends at or before a later one begins: the fields do not overlap (R23 (b)). -/
theorem prefixSums_disjoint {off : Nat} {fields : List FieldDescriptor} (h : prefixSums off fields) :
    fields.Pairwise fun f g => f.endBit ≤ g.bitOffset := by
  induction fields generalizing off with
  | nil => exact .nil
  | cons f rest ih =>
    refine List.pairwise_cons.2 ⟨fun g hg => ?_, ih h.2⟩
    have := prefixSums_bounds h.2 hg
    simp only [FieldDescriptor.endBit, h.1]; omega

/-- A field of a valid schema ends within the schema's bits (R187, R188). -/
theorem RegisterSchema.Valid.endBit_le {sch : RegisterSchema} (h : sch.Valid) {f : FieldDescriptor}
    (hf : f ∈ sch.fields) : f.endBit ≤ sch.totalBits := by
  have := prefixSums_bounds h.offsets hf
  rw [h.total]; omega

theorem nativeWidth_le (nw : NativeWidth) : nw.bits ≤ 128 := by cases nw <;> simp [NativeWidth.bits]

/-- An integer field of a valid schema is 1 to 128 bits wide (R166). -/
theorem RegisterSchema.Valid.intWidth {sch : RegisterSchema} (h : sch.Valid) {f : FieldDescriptor} {nw : NativeWidth}
    (hf : f ∈ sch.fields) (hk : f.valueKind = .unsignedInteger nw) : 1 ≤ f.bitWidth ∧ f.bitWidth ≤ 128 :=
  ⟨(h.widths f hf).1, Nat.le_trans ((h.widths f hf).2 nw hk) (nativeWidth_le nw)⟩

/-! ## What BUILD lays out -/

theorem layOut_prefixSums (off : Nat) (specs : List FieldSpec) : prefixSums off (layOut off specs) := by
  induction specs generalizing off with
  | nil => trivial
  | cons f rest ih => exact ⟨rfl, ih _⟩

theorem layOut_names (off : Nat) (specs : List FieldSpec) : (layOut off specs).map (·.name) = specs.map (·.name) := by
  induction specs generalizing off with
  | nil => rfl
  | cons f rest ih => simp [layOut, ih]

theorem layOut_widths (off : Nat) (specs : List FieldSpec) :
    (layOut off specs).map (·.bitWidth) = specs.map (·.bitWidth) := by
  induction specs generalizing off with
  | nil => rfl
  | cons f rest ih => simp [layOut, ih]

theorem layOut_kinds (off : Nat) (specs : List FieldSpec) : (layOut off specs).map (·.valueKind) = specs.map specKind := by
  induction specs generalizing off with
  | nil => rfl
  | cons f rest ih => simp [layOut, ih]

theorem mem_layOut {off : Nat} {specs : List FieldSpec} {d : FieldDescriptor} (h : d ∈ layOut off specs) :
    ∃ f ∈ specs, d.name = f.name ∧ d.bitWidth = f.bitWidth ∧ d.valueKind = specKind f := by
  induction specs generalizing off with
  | nil => simp [layOut] at h
  | cons f rest ih =>
    rcases List.mem_cons.1 h with rfl | h
    · exact ⟨f, by simp, rfl, rfl, rfl⟩
    · obtain ⟨g, hg, hh⟩ := ih h
      exact ⟨g, by simp [hg], hh⟩

/-! ## What BUILD checks -/

/-- No name is repeated and none was seen before, exactly when `firstRepeat` finds nothing. -/
theorem firstRepeat_eq_none (seen names : List FieldName) :
    firstRepeat seen names = none ↔ names.Nodup ∧ ∀ x ∈ names, x ∉ seen := by
  induction names generalizing seen with
  | nil => simp [firstRepeat]
  | cons x rest ih =>
    by_cases hx : x ∈ seen
    · simp [firstRepeat, hx]
    · simp only [firstRepeat, hx, if_false, ih, List.nodup_cons, List.mem_cons]
      constructor
      · rintro ⟨hn, hs⟩
        refine ⟨⟨fun hm => hs x hm (.inl rfl), hn⟩, ?_⟩
        rintro y (rfl | hy)
        · exact hx
        · exact fun h => hs y hy (.inr h)
      · rintro ⟨⟨hm, hn⟩, hs⟩
        refine ⟨hn, fun y hy => ?_⟩
        rintro (rfl | h)
        · exact hm hy
        · exact hs y (.inr hy) h

/-- The first name that repeats an earlier one is found (R111 (4)). -/
theorem firstRepeat_split (seen pre : List FieldName) (x : FieldName) (post : List FieldName)
    (hp : ∀ y ∈ pre, y ∉ seen) (hn : pre.Nodup) (hx : x ∈ seen ∨ x ∈ pre) :
    firstRepeat seen (pre ++ x :: post) = some x := by
  induction pre generalizing seen with
  | nil => simp at hx; simp [firstRepeat, hx]
  | cons y rest ih =>
    have hy := hp y (by simp)
    have hn' := List.nodup_cons.1 hn
    simp only [List.cons_append, firstRepeat, hy, if_false]
    apply ih
    · intro z hz hm
      rcases List.mem_cons.1 hm with rfl | hm
      · exact hn'.1 hz
      · exact hp z (by simp [hz]) hm
    · exact hn'.2
    · rcases hx with hx | hx
      · exact .inl (by simp [hx])
      · rcases List.mem_cons.1 hx with rfl | hx
        · exact .inl (by simp)
        · exact .inr hx

/-- A list that passes all of BUILD's checks (R110, R111). -/
theorem schemaFault_eq_none (specs : List FieldSpec) :
    schemaFault specs = none ↔ (∀ f ∈ specs, hasBadKind f = false) ∧ specs ≠ [] ∧ (∀ f ∈ specs, 1 ≤ f.bitWidth) ∧
      (∀ f ∈ specs, tooWideForNative f = false) ∧ (specs.map (·.name)).Nodup := by
  unfold schemaFault
  split
  · rename_i f hf
    have h1 := List.mem_of_find?_eq_some hf
    have h2 := List.find?_some hf
    simp only [reduceCtorEq, false_iff]
    rintro ⟨h, -⟩
    simp [h f h1] at h2
  · rename_i h0
    have h0' : ∀ f ∈ specs, hasBadKind f = false := by simpa using h0
    split
    · rename_i he; simp [he]
    · rename_i hne
      split
      · rename_i f hf
        have h1 := List.mem_of_find?_eq_some hf
        have h2 := List.find?_some hf
        simp only [reduceCtorEq, false_iff]
        rintro ⟨-, -, h, -⟩
        have := h f h1
        simp at h2; omega
      · rename_i hz
        have hz' : ∀ f ∈ specs, 1 ≤ f.bitWidth := by
          intro f hf
          have := List.find?_eq_none.1 hz f hf
          simp at this; omega
        split
        · rename_i f hf
          have h1 := List.mem_of_find?_eq_some hf
          have h2 := List.find?_some hf
          simp only [reduceCtorEq, false_iff]
          rintro ⟨-, -, -, h, -⟩
          simp [h f h1] at h2
        · rename_i hw
          have hw' : ∀ f ∈ specs, tooWideForNative f = false := by simpa using hw
          have key := firstRepeat_eq_none [] (specs.map (·.name))
          split
          · rename_i nm hr
            rw [hr] at key
            simp only [reduceCtorEq, false_iff]
            rintro ⟨-, -, -, -, h⟩
            simp [h] at key
          · rename_i hr
            exact ⟨fun _ => ⟨h0', hne, hz', hw', (key.1 hr).1⟩, fun _ => rfl⟩

/-- What BUILD loads is valid (R23, R113). -/
theorem buildSchema_valid {specs : List FieldSpec} {sch : RegisterSchema} (h : buildSchema specs = .ok sch) :
    sch.Valid := by
  unfold buildSchema at h
  split at h
  · cases h
  · rename_i hf
    obtain ⟨h0, hne, hz, hw, hn⟩ := (schemaFault_eq_none specs).1 hf
    cases h
    refine ⟨?_, ?_, layOut_prefixSums _ _, ?_, ?_⟩
    · cases specs with
      | nil => exact absurd rfl hne
      | cons f rest => simp [layOut]
    · show _ = ((layOut 0 specs).map (·.bitWidth)).sum
      rw [layOut_widths]
    · intro d hd
      obtain ⟨f, hf, -, hwd, hk⟩ := mem_layOut hd
      refine ⟨by rw [hwd]; exact hz f hf, fun nw hnw => ?_⟩
      have hb := h0 f hf
      have ht := hw f hf
      rw [hk] at hnw
      simp only [specKind, hasBadKind, tooWideForNative, Option.isNone_eq_false_iff, Option.isSome_iff_exists] at hnw hb ht
      obtain ⟨k, hk⟩ := hb
      rw [hk] at hnw ht
      simp only [Option.getD_some] at hnw
      subst hnw
      simpa [hwd] using ht
    · rw [show (RegisterSchema.fields ⟨layOut 0 specs, (specs.map (·.bitWidth)).sum⟩) = layOut 0 specs from rfl,
        layOut_names]
      exact hn

end Sys2Proof.Machine
end

