-- ==== Sys2Proof/Laws/Codec.lean ====
section
/-! SUPPORT. Blob images as numbers, what the encode path of one field does to a buffer, and what the field loops of
ENCODE and DECODE do. -/

namespace Sys2Proof.Machine

/-! ## Bytes as numbers -/

theorem bitLen_eq {A B : Bytes} (h : A.length = B.length) : bitLen A = bitLen B := by simp [bitLen, h]

@[simp] theorem beBytes_length (v m : Nat) : (beBytes v m).length = m := by simp [beBytes]

theorem bitAt_beBytes (v m i : Nat) (h : i < 8 * m) : bitAt (beBytes v m) i = v.testBit (8 * m - 1 - i) := by
  have hk : i / 8 < m := by omega
  simp only [bitAt, beBytes, List.getD_eq_getElem?_getD, List.getElem?_map, List.getElem?_range hk, Option.map_some,
    Option.getD_some, BitVec.getLsbD_ofNat]
  have hp : (256 : Nat) ^ (m - 1 - i / 8) = 2 ^ (8 * (m - 1 - i / 8)) := by rw [Nat.pow_mul]
  rw [hp, ← Nat.shiftRight_eq_div_pow, Nat.testBit_shiftRight]
  have e : 8 * (m - 1 - i / 8) + (7 - i % 8) = 8 * m - 1 - i := by omega
  simp [e, show 7 - i % 8 < 8 by omega]

theorem testBit_beVal (O : Bytes) (i : Nat) (h : i < bitLen O) : (beVal O).testBit (bitLen O - 1 - i) = bitAt O i := by
  rw [beVal_eq_bitsRead]
  simpa using testBit_bitsRead O 0 (bitLen O) i h

/-- The blob image is the big-endian bytes of the bits (R60). -/
theorem blobRead_eq_beBytes (B : Bytes) (s L : Nat) : blobRead B s L = beBytes (bitsRead B s L) (ceil8 L) := by
  have hp := blobPad_add L
  refine bytes_ext (by simp) fun i hi => ?_
  have hi' : i < 8 * ceil8 L := by simpa [bitLen] using hi
  rw [bitAt_beBytes _ _ _ hi']
  by_cases h : i < blobPad L
  · rw [bitAt_blobRead_pad _ _ _ _ h]
    exact (Nat.testBit_lt_two_pow (Nat.lt_of_lt_of_le (bitsRead_lt B s L)
      (Nat.pow_le_pow_right (by omega) (by omega)))).symm
  · obtain ⟨j, rfl⟩ : ∃ j, i = blobPad L + j := ⟨i - blobPad L, by omega⟩
    rw [bitAt_blobRead_in _ _ _ _ (by omega), ← testBit_bitsRead B s L j (by omega)]
    congr 1; omega

/-- Writing an image writes its number reduced to the field's width (R133). -/
theorem blobWrite_eq_bitsWrite (B : Bytes) (s L : Nat) {O : Bytes} (hO : O.length = ceil8 L) :
    blobWrite B s L O = bitsWrite B s L (trunc L (beVal O)) := by
  have hp := blobPad_add L
  have hO' : bitLen O = 8 * ceil8 L := by simp [bitLen, hO]
  refine bytes_ext (by simp) fun i hi => ?_
  have hi' : i < 8 * B.length := by simpa [bitLen] using hi
  simp only [blobWrite, bitsWrite, bitAt_bytesOfBits _ _ _ hi']
  split
  · rename_i h
    rw [← testBit_beVal O _ (by omega), trunc, Nat.testBit_mod_two_pow]
    have e : bitLen O - 1 - (blobPad L + (i - s)) = L - 1 - (i - s) := by omega
    simp [e, show L - 1 - (i - s) < L by omega]
  · rfl

theorem bitsRead_blobWrite {B : Bytes} {s L : Nat} {O : Bytes} (hO : O.length = ceil8 L) (hb : s + L ≤ bitLen B) :
    bitsRead (blobWrite B s L O) s L = beVal O % 2 ^ L := by
  rw [blobWrite_eq_bitsWrite B s L hO, bitsRead_bitsWrite _ hb]
  simp [trunc]

/-! ## One field -/

/-- The encode path succeeds on a value the field takes, within the buffer, and then writes the stored number into
the field's range (R160). -/
theorem encodeField_ok {strict : Bool} {f : FieldDescriptor} {B B' : Bytes} {x : Value} :
    encodeField strict f B x = .ok B' ↔
      f.takes strict x ∧ f.endBit ≤ bitLen B ∧ B' = bitsWrite B f.bitOffset f.bitWidth (storedNat f.bitWidth x) := by
  unfold encodeField FieldDescriptor.takes FieldDescriptor.endBit
  cases hk : f.valueKind with
  | unsignedInteger nw =>
    cases x with
    | blob O => simp
    | int v =>
      simp only [storedNat, trunc]
      by_cases hs : strict = true ∧ v.toNat ≥ 2 ^ f.bitWidth
      · simp only [hs, if_true, and_self, reduceCtorEq, false_iff]
        rintro ⟨⟨-, h⟩, -⟩
        have := h trivial
        omega
      · by_cases hb : f.bitOffset + f.bitWidth > bitLen B
        · simp [hs, hb]
        · simp only [hs, hb, if_false, Except.ok.injEq]
          constructor
          · rintro rfl
            exact ⟨⟨⟨nw, rfl⟩, fun h => by by_contra hc; exact hs ⟨h, by omega⟩⟩, by omega, rfl⟩
          · rintro ⟨-, -, rfl⟩; rfl
  | byteBlob =>
    cases x with
    | int v => simp
    | blob O =>
      by_cases hO : O.length = ceil8 f.bitWidth
      · by_cases hb : f.bitOffset + f.bitWidth > bitLen B
        · simp [hO, hb]
        · simp only [hO, hb, ne_eq, not_true_eq_false, if_false, Except.ok.injEq, storedNat]
          rw [blobWrite_eq_bitsWrite _ _ _ hO, trunc]
          constructor
          · rintro rfl; exact ⟨by simp, by omega, rfl⟩
          · rintro ⟨-, -, rfl⟩; rfl
      · simp [hO]

theorem storedNat_lt (w : Nat) (x : Value) : storedNat w x < 2 ^ w := by
  cases x <;> exact Nat.mod_lt _ (Nat.two_pow_pos w)

/-- A field's value read from the number in its range: for a value it takes, the reduced value (R161, R167). -/
theorem fieldValue_of_stored {strict : Bool} {f : FieldDescriptor} {B : Bytes} {x : Value} (ht : f.takes strict x)
    (h : bitsRead B f.bitOffset f.bitWidth = storedNat f.bitWidth x) : fieldValue f B = reducedValue f.bitWidth x := by
  cases x with
  | int v =>
    obtain ⟨⟨nw, hk⟩, -⟩ := ht
    simp [fieldValue, hk, reducedValue, h, storedNat]
  | blob O =>
    obtain ⟨hk, -⟩ := ht
    simp [fieldValue, hk, reducedValue, blobRead_eq_beBytes, h, storedNat]

/-- A field's value depends on the bits of its range only (R161). -/
theorem fieldValue_congr {f : FieldDescriptor} {A B : Bytes}
    (h : ∀ i, f.bitOffset ≤ i → i < f.endBit → bitAt A i = bitAt B i) : fieldValue f A = fieldValue f B := by
  have := bitsRead_congr h
  unfold fieldValue
  split
  · rw [this]
  · rw [blobRead_eq_beBytes, blobRead_eq_beBytes, this]

/-! ## All fields -/

/-- What the field loop of ENCODE does, if it succeeds: the length stays, bits outside the fields stay, and every
field holds the stored number of its name's value (R180, R186). -/
theorem encodeFields_ok {strict : Bool} {vals : FieldValues} {fields : List FieldDescriptor} {B B' : Bytes}
    (hd : fields.Pairwise fun f g => f.endBit ≤ g.bitOffset) (h : encodeFields strict vals fields B = .ok B') :
    B'.length = B.length ∧
    (∀ i, (∀ f ∈ fields, i < f.bitOffset ∨ f.endBit ≤ i) → bitAt B' i = bitAt B i) ∧
    ∀ f ∈ fields, ∃ x, valueOf vals f.name = some x ∧ f.takes strict x ∧ f.endBit ≤ bitLen B ∧
      bitsRead B' f.bitOffset f.bitWidth = storedNat f.bitWidth x := by
  induction fields generalizing B with
  | nil => cases h; simp
  | cons f rest ih =>
    have hp := List.pairwise_cons.1 hd
    simp only [encodeFields] at h
    split at h
    · cases h
    · rename_i x hx
      split at h
      · cases h
      · rename_i B1 hB1
        obtain ⟨ht, hb, rfl⟩ := encodeField_ok.1 hB1
        obtain ⟨h1, h2, h3⟩ := ih hp.2 h
        have hl : bitLen (bitsWrite B f.bitOffset f.bitWidth (storedNat f.bitWidth x)) = bitLen B :=
          bitLen_eq (by simp)
        refine ⟨by simpa using h1, fun i hi => ?_, fun g hg => ?_⟩
        · rw [h2 i fun g hg => hi g (by simp [hg]),
            bitAt_bitsWrite_out _ _ _ _ _ (by simpa [FieldDescriptor.endBit] using hi f (by simp))]
        · rcases List.mem_cons.1 hg with rfl | hg
          · refine ⟨x, hx, ht, hb, ?_⟩
            rw [bitsRead_congr (B := bitsWrite B g.bitOffset g.bitWidth (storedNat g.bitWidth x)),
              bitsRead_bitsWrite _ hb, Nat.mod_eq_of_lt (storedNat_lt _ _)]
            intro i h4 h5
            exact h2 i fun g' hg' => .inl (Nat.lt_of_lt_of_le h5 (hp.1 g' hg'))
          · obtain ⟨y, hy, hty, hby, hs⟩ := h3 g hg
            exact ⟨y, hy, hty, hl ▸ hby, hs⟩

/-- The field loop of ENCODE succeeds when every field's value is there, taken by the field, and within the buffer. -/
theorem encodeFields_succeeds {strict : Bool} {vals : FieldValues} {fields : List FieldDescriptor} {B : Bytes}
    (h : ∀ f ∈ fields, ∃ x, valueOf vals f.name = some x ∧ f.takes strict x ∧ f.endBit ≤ bitLen B) :
    ∃ B', encodeFields strict vals fields B = .ok B' := by
  induction fields generalizing B with
  | nil => exact ⟨B, rfl⟩
  | cons f rest ih =>
    obtain ⟨x, hx, ht, hb⟩ := h f (by simp)
    have h1 := encodeField_ok.2 ⟨ht, hb, rfl⟩
    have hl : bitLen (bitsWrite B f.bitOffset f.bitWidth (storedNat f.bitWidth x)) = bitLen B := bitLen_eq (by simp)
    simp only [encodeFields, hx, h1]
    exact ih fun g hg => by rw [hl]; exact h g (by simp [hg])

/-- What the field loop of DECODE does when every field lies in the buffer: it succeeds, and the result maps each
field's name to its value and every other name as before (R181). -/
theorem decodeFields_ok {B : Bytes} {fields : List FieldDescriptor} {R : FieldValues}
    (hb : ∀ f ∈ fields, f.endBit ≤ bitLen B) (hn : (fields.map (·.name)).Nodup) :
    ∃ R', decodeFields B fields R = .ok R' ∧
      (∀ f ∈ fields, valueOf R' f.name = some (fieldValue f B)) ∧
      (∀ nm, nm ∉ fields.map (·.name) → valueOf R' nm = valueOf R nm) ∧
      (FieldValues.wf R → FieldValues.wf R') := by
  induction fields generalizing R with
  | nil => exact ⟨R, rfl, by simp, by simp, id⟩
  | cons f rest ih =>
    have hf := hb f (by simp)
    have hn' := List.nodup_cons.1 hn
    obtain ⟨R', h1, h2, h3, h4⟩ := ih (R := setValue R f.name (fieldValue f B)) (fun g hg => hb g (by simp [hg])) hn'.2
    have hd : decodeField f B = .ok (fieldValue f B) := by
      unfold decodeField
      rw [if_neg (by simp only [FieldDescriptor.endBit] at hf; omega)]
    refine ⟨R', by simp only [decodeFields, hd]; exact h1, fun g hg => ?_, fun nm hnm => ?_, fun hR => ?_⟩
    · rcases List.mem_cons.1 hg with rfl | hg
      · rw [h3 _ hn'.1, valueOf_setValue_same]
      · exact h2 g hg
    · simp only [List.map_cons, List.mem_cons, not_or] at hnm
      rw [h3 _ hnm.2, valueOf_setValue_other _ _ hnm.1]
    · exact h4 (setValue_wf hR _ _)

theorem ceil8_bits (n : Nat) : n ≤ 8 * ceil8 n := by simp only [ceil8]; omega

end Sys2Proof.Machine
end

