-- ==== Sys2Proof/Laws/State.lean ====
section
/-! SUPPORT. One lemma per field for each update of State, and what `finish` can answer. -/

namespace Sys2Proof.Machine

variable (s : State) (r : Response) (e : EngineError) (B : Bytes) (sch : RegisterSchema) (p : Ports)
  (rest : List HostEvent)

@[simp] theorem State.answer_ss : (s.answer r).ss = s.ss := rfl
@[simp] theorem State.answer_ports : (s.answer r).ports = Ports.idle := rfl
@[simp] theorem State.answer_resp : (s.answer r).resp = some r := rfl
@[simp] theorem State.answer_mem : (s.answer r).mem = s.mem := rfl
@[simp] theorem State.answer_pending : (s.answer r).pending = s.pending := rfl

@[simp] theorem State.raise_ss : (s.raise e).ss = s.ss := rfl
@[simp] theorem State.raise_ports : (s.raise e).ports = Ports.idle := rfl
@[simp] theorem State.raise_resp : (s.raise e).resp = some e.response := rfl
@[simp] theorem State.raise_mem : (s.raise e).mem = s.mem := rfl
@[simp] theorem State.raise_pending : (s.raise e).pending = s.pending := rfl

@[simp] theorem State.returnBuffer_ss : (s.returnBuffer B).ss = s.ss := rfl
@[simp] theorem State.returnBuffer_ports : (s.returnBuffer B).ports = Ports.idle := rfl
@[simp] theorem State.returnBuffer_resp :
    (s.returnBuffer B).resp = some { Response.ok with buf := some B } := rfl
@[simp] theorem State.returnBuffer_mem : (s.returnBuffer B).mem = s.mem.write s.ports.buf B := rfl
@[simp] theorem State.returnBuffer_pending : (s.returnBuffer B).pending = s.pending := rfl

@[simp] theorem State.loadSchema_ss : (s.loadSchema sch).ss = some sch := rfl
@[simp] theorem State.loadSchema_ports : (s.loadSchema sch).ports = Ports.idle := rfl
@[simp] theorem State.loadSchema_resp : (s.loadSchema sch).resp = some Response.ok := rfl
@[simp] theorem State.loadSchema_mem : (s.loadSchema sch).mem = s.mem := rfl
@[simp] theorem State.loadSchema_pending : (s.loadSchema sch).pending = s.pending := rfl

@[simp] theorem State.present_ss : (s.present p rest).ss = s.ss := rfl
@[simp] theorem State.present_ports : (s.present p rest).ports = p := rfl
@[simp] theorem State.present_resp : (s.present p rest).resp = s.resp := rfl
@[simp] theorem State.present_mem : (s.present p rest).mem = s.mem := rfl
@[simp] theorem State.present_pending : (s.present p rest).pending = rest := rfl
@[simp] theorem State.present_handed : (s.present p rest).handed = s.mem.read p.buf := rfl

@[simp] theorem EngineError.response_status : e.response.status = e.status := rfl
@[simp] theorem EngineError.response_ename : e.response.ename = e.ename := rfl
@[simp] theorem EngineError.response_produced : e.response.produced = [] := rfl
@[simp] theorem Response.ok_status : Response.ok.status = .success := rfl

theorem EngineError.status_ne_success : e.status ≠ .success := by cases e <;> nofun

variable {α : Type} (x : Except EngineError α) (done : α → State) {t : State}

theorem State.finish_error : s.finish (.error e) done = .next (s.raise e) := rfl
theorem State.finish_ok (a : α) : s.finish (.ok a) done = .next (done a) := rfl

/-- Everything `finish` can answer: the error's state, or the state that `done` makes. -/
theorem State.finish_cases (h : s.finish x done = .next t) :
    (∃ e, x = .error e ∧ t = s.raise e) ∨ (∃ a, x = .ok a ∧ t = done a) := by
  cases x with
  | error e => cases h; exact .inl ⟨e, rfl, rfl⟩
  | ok a => cases h; exact .inr ⟨a, rfl, rfl⟩

/-- `finish` always answers a next state (R36). -/
theorem State.finish_next : ∃ t, s.finish x done = .next t := by
  cases x with
  | error e => exact ⟨_, rfl⟩
  | ok a => exact ⟨_, rfl⟩

end Sys2Proof.Machine
end

