-- ==== Sys2Proof/Laws/Exec.lean ====
section
/-! SUPPORT. Everything `exec` and `step` can answer: an error's state or a success's state, always a next state. -/

namespace Sys2Proof.Machine

/-- The states a successful command can leave: SS replaced by BUILD, a buffer returned, or a result on its port. -/
inductive Success (s : State) : Instr → State → Prop where
  | build (sch : RegisterSchema) (h : buildSchema s.ports.specs = .ok sch) : Success s .build (s.loadSchema sch)
  | rdbits (v : Val) (h : readBits s.handed s.ports.start s.ports.len = .ok v) :
      Success s .rdbits (s.answer { Response.ok with rval := some v })
  | wrbits (B : Bytes) (h : writeBits s.handed s.ports.start s.ports.len s.ports.val = .ok B) :
      Success s .wrbits (s.returnBuffer B)
  | rdblob (O : Bytes) (h : readBlob s.handed s.ports.start s.ports.len = .ok O) :
      Success s .rdblob (s.answer { Response.ok with rblob := some O })
  | wrblob (B : Bytes) (h : writeBlob s.handed s.ports.start s.ports.len s.ports.blob = .ok B) :
      Success s .wrblob (s.returnBuffer B)
  | fenc (strict : Bool) (B : Bytes)
      (h : encodeAddressed strict s.ss s.handed s.ports.fidx s.ports.fval = .ok B) :
      Success s (.fenc strict) (s.returnBuffer B)
  | fdec (x : Value) (h : decodeAddressed s.ss s.handed s.ports.fidx = .ok x) :
      Success s .fdec (s.answer { Response.ok with rfval := some x })
  | encode (strict : Bool) (B : Bytes) (h : encodeLoaded strict s.ss s.ports.vals = .ok B) :
      Success s (.encode strict) (s.returnBuffer B)
  | decode (R : FieldValues) (h : decodeLoaded s.ss s.handed = .ok R) :
      Success s .decode (s.answer { Response.ok with rvals := some R })

/-- Everything `exec` can answer: an error's state, or a success (R26, R205). -/
theorem exec_cases {i : Instr} {s t : State} (h : exec i s = .next t) : (∃ e, t = s.raise e) ∨ Success s i t := by
  cases i with
  | build =>
    obtain ⟨e, -, rfl⟩ | ⟨a, ha, rfl⟩ := State.finish_cases _ _ _ h
    exacts [.inl ⟨e, rfl⟩, .inr (.build a ha)]
  | rdbits =>
    obtain ⟨e, -, rfl⟩ | ⟨a, ha, rfl⟩ := State.finish_cases _ _ _ h
    exacts [.inl ⟨e, rfl⟩, .inr (.rdbits a ha)]
  | wrbits =>
    obtain ⟨e, -, rfl⟩ | ⟨a, ha, rfl⟩ := State.finish_cases _ _ _ h
    exacts [.inl ⟨e, rfl⟩, .inr (.wrbits a ha)]
  | rdblob =>
    obtain ⟨e, -, rfl⟩ | ⟨a, ha, rfl⟩ := State.finish_cases _ _ _ h
    exacts [.inl ⟨e, rfl⟩, .inr (.rdblob a ha)]
  | wrblob =>
    obtain ⟨e, -, rfl⟩ | ⟨a, ha, rfl⟩ := State.finish_cases _ _ _ h
    exacts [.inl ⟨e, rfl⟩, .inr (.wrblob a ha)]
  | fenc strict =>
    obtain ⟨e, -, rfl⟩ | ⟨a, ha, rfl⟩ := State.finish_cases _ _ _ h
    exacts [.inl ⟨e, rfl⟩, .inr (.fenc strict a ha)]
  | fdec =>
    obtain ⟨e, -, rfl⟩ | ⟨a, ha, rfl⟩ := State.finish_cases _ _ _ h
    exacts [.inl ⟨e, rfl⟩, .inr (.fdec a ha)]
  | encode strict =>
    obtain ⟨e, -, rfl⟩ | ⟨a, ha, rfl⟩ := State.finish_cases _ _ _ h
    exacts [.inl ⟨e, rfl⟩, .inr (.encode strict a ha)]
  | decode =>
    obtain ⟨e, -, rfl⟩ | ⟨a, ha, rfl⟩ := State.finish_cases _ _ _ h
    exacts [.inl ⟨e, rfl⟩, .inr (.decode a ha)]

/-- Everything one step can do: nothing, a HOST event, the refusal of an illegal byte, or a command (R240). -/
theorem step_cases {s t : State} (h : step s = .next t) :
    (s.pending = [] ∧ t = s) ∨
    (∃ rest, s.pending = .reset :: rest ∧
      t = { s with ss := none, ports := Ports.idle, resp := none, pending := rest }) ∨
    (∃ n B rest, s.pending = .buffer n B :: rest ∧ t = { s with mem := s.mem.write n B, pending := rest }) ∨
    (∃ p rest e, s.pending = .command p :: rest ∧ decodeByte p.cmd = .error e ∧
      t = (s.present p rest).raise .illegalCommand) ∨
    (∃ p rest i, s.pending = .command p :: rest ∧ decodeByte p.cmd = .ok i ∧ exec i (s.present p rest) = .next t) := by
  unfold step at h
  split at h
  · rename_i hp
    cases h; exact .inl ⟨hp, rfl⟩
  · rename_i rest hp
    cases h; exact .inr (.inl ⟨rest, hp, rfl⟩)
  · rename_i n B rest hp
    cases h; exact .inr (.inr (.inl ⟨n, B, rest, hp, rfl⟩))
  · rename_i p rest hp
    split at h
    · rename_i e he
      cases h; exact .inr (.inr (.inr (.inl ⟨p, rest, e, hp, he, rfl⟩)))
    · rename_i i hi
      exact .inr (.inr (.inr (.inr ⟨p, rest, i, hp, hi, h⟩)))

end Sys2Proof.Machine
end

