-- ==== Sys2Proof/Tests/Slice0.lean ====
section
/-! SUPPORT. Tests of single steps, with their results taken from spec/ (the source stands above each test), the smoke
test of well-formedness, and for every statement with hypotheses a state and operands that meet them. -/

namespace Sys2Proof.Machine

/-! ## Helpers -/

/-- The response an outcome gives. -/
def respOf : Outcome → Option Response
  | .next t => t.resp
  | _ => none

/-- What HOST buffer 7 holds after an outcome. -/
def bufOf : Outcome → Bytes
  | .next t => t.mem.read 7
  | _ => []

/-- The schema store after an outcome. -/
def ssOf : Outcome → Option RegisterSchema
  | .next t => t.ss
  | _ => none

/-- Names `a`, `b`, `c` of the spec's schema SA. -/
def nA : FieldName := ⟨0⟩
def nB : FieldName := ⟨1⟩
def nC : FieldName := ⟨2⟩

/-- The field specs of SA (V-B1): `(a:3:U8, b:13:U16, c:12:BLOB)`. -/
def saSpecs : List FieldSpec := [⟨nA, 3, 0⟩, ⟨nB, 13, 1⟩, ⟨nC, 12, 5⟩]

/-- The schema SA (V-B1): offsets 0, 3, 16 and 28 bits. -/
def sa : RegisterSchema :=
  ⟨[⟨nA, 3, 0, .unsignedInteger .w8⟩, ⟨nB, 13, 3, .unsignedInteger .w16⟩, ⟨nC, 12, 16, .byteBlob⟩], 28⟩

/-- The values of V-R1. -/
def saVals : FieldValues := [(nA, .int 5), (nB, .int 0x1ABC), (nC, .blob [0x0D, 0xEF])]

/-- The values of V-R2, which do not fit. -/
def wideVals : FieldValues := [(nA, .int 0xFD), (nB, .int 0xFABC), (nC, .blob [0xFD, 0xEF])]

def b4 : Bytes := [0xA5, 0x3C, 0xF0, 0x0F]
def z4 : Bytes := [0, 0, 0, 0]
def saBuf : Bytes := [0xBA, 0xBC, 0xDE, 0xF0]

/-- A state with a schema store, HOST buffer 7 and ports that hand over buffer 7. -/
def st (ss : Option RegisterSchema) (B : Bytes) (p : Ports) : State :=
  { State.reset with ss := ss, mem := Memory.write [] 7 B, ports := { p with buf := 7 } }

/-- Ports with a bit range. -/
def range (start len : Nat) : Ports := { Ports.idle with start := start, len := len }

/-- Ports with a field index and a value. -/
def field (i : Nat) (x : Value) : Ports := { Ports.idle with fidx := i, fval := x }

/-- Ports with the values of ENCODE. -/
def values (vals : FieldValues) : Ports := { Ports.idle with vals := vals }

/-- A state between commands whose HOST does one event next. -/
def next1 (ss : Option RegisterSchema) (B : Bytes) (ev : HostEvent) : State :=
  { State.reset with ss := ss, mem := Memory.write [] 7 B, pending := [ev] }

theorem sa_valid : sa.Valid := buildSchema_valid (specs := saSpecs) (by decide)

/-! ## Decoding: words written out from R80 and the opcode table -/

/-- Format S: RSV 000, S 0, OP 0001. -/
theorem test_decode_build : decodeTableWord 8 0b00000001 = some .build := by decide

/-- Format C: RSV 000, S 0, OP 0011. -/
theorem test_decode_wrbits : decodeTableWord 8 0b00000011 = some .wrbits := by decide

/-- Format F: RSV 000, S 1, OP 0110. -/
theorem test_decode_fenc_strict : decodeTableWord 8 0b00010110 = some (.fenc true) := by decide

/-- Format R: RSV 000, S 0, OP 1000, and S 1, OP 1000. -/
theorem test_decode_encode : decodeTableWord 8 0b00001000 = some (.encode false) ∧
    decodeTableWord 8 0b00011000 = some (.encode true) := by decide

/-- Every other row: OP 2, 4, 5, 6, 7, 9 with S 0. -/
theorem test_decode_others : decodeTableWord 8 0b00000010 = some .rdbits ∧ decodeTableWord 8 0b00000100 = some .rdblob ∧
    decodeTableWord 8 0b00000101 = some .wrblob ∧ decodeTableWord 8 0b00000110 = some (.fenc false) ∧
    decodeTableWord 8 0b00000111 = some .fdec ∧ decodeTableWord 8 0b00001001 = some .decode := by decide

/-- R83: each way of being illegal, by name. -/
theorem test_decode_illegal : decodeByte 0b00100001 = .error .reservedBits ∧ decodeByte 0b00000000 = .error .reservedOp ∧
    decodeByte 0b00001010 = .error .reservedOp ∧ decodeByte 0b00010001 = .error .strictNotAllowed := by decide

/-- A table word placed in the state after reset is what the very next step runs: RDBITS with the ports at rest, whose
count is 0 (R135). -/
theorem test_withFetchWord : respOf (step (State.reset.withFetchWord 8 0x02)) = some { status := .badCount } := by decide

/-- R88: the text of `BUILD (n0:3:U8, n2:12:BLOB)` and `FENC.S 1, 64188`. -/
theorem test_text :
    (AsmLine.build [(nA, 3, .unsignedInteger .w8), (nC, 12, .byteBlob)]).text = "BUILD (n0:3:U8, n2:12:BLOB)" ∧
    (AsmLine.fenc true 1 (.int 0xFABC)).text = "FENC.S 1, 64188" := by decide

/-- R7, R22: the native widths; R87: the class of `BadBlobLength` (0x54) is the high nibble 5. -/
theorem test_widths_and_class :
    [NativeWidth.w8, .w16, .w32, .w64, .w128].map NativeWidth.bits = Config.nativeWidths ∧
    Status.badBlobLength.code = 0x54 ∧ Status.badBlobLength.errorClass.map ErrorClass.nibble = some 5 := by decide

/-- R84: the format of one command of each kind, and that BUILD alone writes SS. -/
theorem test_formats : [Instr.build, .wrblob, .fdec, .encode true].map instrFormat = [.S, .C, .F, .R] ∧
    [Instr.build, .rdbits, .wrbits, .rdblob, .wrblob, .fenc true, .fdec, .encode false, .decode].map writesSchema =
      [true, false, false, false, false, false, false, false, false] := by decide

/-! ## Well-formedness: each check refuses an ill-formed term -/

/-- A map with one name twice. -/
theorem test_wf_duplicate : ¬ FieldValues.wf [(nA, .int 1), (nA, .int 2)] := by decide

/-- A map out of order. -/
theorem test_wf_order : ¬ FieldValues.wf [(nB, .int 1), (nA, .int 2)] := by decide

/-- Ports, an event and a written line that carry such a map. -/
theorem test_wf_carriers :
    ¬ (values [(nA, .int 1), (nA, .int 2)]).wf ∧ (HostEvent.command (values [(nB, .int 1), (nA, .int 2)])).wf = false ∧
    (AsmLine.encode false [(nA, .int 1), (nA, .int 2)]).wf = false := by decide

/-- Buffers with an empty entry, and out of order. -/
theorem test_wf_memory : ¬ Memory.wf [(1, [])] ∧ ¬ Memory.wf [(2, [1]), (1, [1])] := by decide

/-- Well-formed terms pass. -/
theorem test_wf_passes : FieldValues.wf saVals ∧ (HostEvent.command (values saVals)).wf = true ∧
    (AsmLine.encode true saVals).wf = true ∧ Memory.wf [(1, [1]), (2, [1])] := by decide

/-! ## One step of each command, from `95_test_vectors.md` -/

/-- V-B1. -/
theorem test_build : ssOf (exec .build (st none [] { Ports.idle with specs := saSpecs })) = some sa := by decide

/-- V-B9: field 1's zero width is reported before field 0's narrow native width, and SS stays. -/
theorem test_build_order :
    let o := exec .build (st (some sa) [] { Ports.idle with specs := [⟨nA, 9, 0⟩, ⟨nA, 0, 0⟩] })
    respOf o = some { status := .zeroWidthField, ename := some nA } ∧ ssOf o = some sa := by decide

/-- V-C4. -/
theorem test_rdbits : respOf (exec .rdbits (st none b4 (range 3 13))) =
    some { status := .success, rval := some 0x053C } := by decide

/-- V-C17. -/
theorem test_rdbits_bounds : respOf (exec .rdbits (st none b4 (range 25 8))) = some { status := .outOfBounds } := by decide

/-- V-C36: the neighbours keep their ones. -/
theorem test_wrbits : bufOf (exec .wrbits (st none [0xFF, 0xFF, 0xFF, 0xFF] { range 5 6 with val := 0x15 })) =
    [0xFA, 0xBF, 0xFF, 0xFF] := by decide

/-- V-C45: both errors apply, bounds first. -/
theorem test_wrbits_order : respOf (exec .wrbits (st none z4 { range 30 3 with val := 9 })) =
    some { status := .outOfBounds } := by decide

/-- V-C54. -/
theorem test_rdblob : respOf (exec .rdblob (st none b4 (range 5 12))) =
    some { status := .success, rblob := some [0x0A, 0x79] } := by decide

/-- V-C72: pad bits are dropped. -/
theorem test_wrblob : bufOf (exec .wrblob (st none z4 { range 4 12 with blob := [0xFA, 0xBC] })) =
    [0x0A, 0xBC, 0x00, 0x00] := by decide

/-- V-C80. -/
theorem test_wrblob_length : respOf (exec .wrblob (st none z4 { range 4 12 with blob := [0xAB] })) =
    some { status := .badBlobLength } := by decide

/-- V-F3. -/
theorem test_fenc : bufOf (exec (.fenc false) (st (some sa) z4 (field 1 (.int 0xFABC)))) = [0x1A, 0xBC, 0x00, 0x00] := by
  decide

/-- V-F4: strict mode refuses, the buffer is unchanged. -/
theorem test_fenc_strict :
    let o := exec (.fenc true) (st (some sa) z4 (field 1 (.int 0xFABC)))
    respOf o = some { status := .valueExceedsWidth, ename := some nB } ∧ bufOf o = z4 := by decide

/-- V-F24: zero extension, no sign. -/
theorem test_fdec : respOf (exec .fdec (st (some sa) [0xFF, 0xFF] (field 1 (.int 0)))) =
    some { status := .success, rfval := some (.int 0x1FFF) } := by decide

/-- V-R2. -/
theorem test_encode : bufOf (exec (.encode false) (st (some sa) [] (values wideVals))) = saBuf := by decide

/-- V-R2, strict: the first field in schema order that fails. -/
theorem test_encode_strict : respOf (exec (.encode true) (st (some sa) [] (values wideVals))) =
    some { status := .valueExceedsWidth, ename := some nA } := by decide

/-- V-R3: pad bits and trailing bytes are ignored. -/
theorem test_decode : respOf (exec .decode (st (some sa) [0xBA, 0xBC, 0xDE, 0xFF, 0x99, 0x77] Ports.idle)) =
    some { status := .success, rvals := some saVals } := by decide

/-- V-R4. -/
theorem test_decode_short : respOf (exec .decode (st (some sa) [0xBA, 0xBC, 0xDE] Ports.idle)) =
    some { status := .bufferTooShort } := by decide

/-! ## Witnesses: states and operands that meet the hypotheses of the statements -/

/-- The state a command ends in; every command ends in one. -/
theorem outcome_some {o : Outcome} {r : Response} (h : respOf o = some r) : ∃ t, o = .next t ∧ t.resp = some r := by
  cases o with
  | next t => exact ⟨t, rfl, h⟩
  | fault f => cases f
  | refused f => cases h

theorem sa_invariant (B : Bytes) (ev : HostEvent) (h : ev.wf = true) : (next1 (some sa) B ev).Inv where
  schema := by rintro sch ⟨⟩; exact sa_valid
  mem := by
    show Memory.wf (Memory.write [] 7 B)
    by_cases hB : B = [] <;> simp [Memory.write, Memory.put, hB, Memory.wf]
  ports := .nil
  resp := nofun
  pending := by simpa [next1] using h

theorem sa_takes (strict : Bool) : ∀ f ∈ sa.fields, ∃ x, valueOf saVals f.name = some x ∧ f.takes strict x := by
  intro f hf
  simp only [sa, List.mem_cons, List.not_mem_nil, or_false] at hf
  obtain rfl | rfl | rfl := hf
  · exact ⟨_, rfl, ⟨_, rfl⟩, fun _ => by decide⟩
  · exact ⟨_, rfl, ⟨_, rfl⟩, fun _ => by decide⟩
  · exact ⟨_, rfl, rfl, by decide⟩

theorem witness_IllegalBytesAreRefused : (next1 (some sa) b4 (.command (range 3 13))).pending =
    [.command (range 3 13)] ∧ (range 3 13).cmd ∉
      ([0x01, 0x02, 0x03, 0x04, 0x05, 0x06, 0x16, 0x07, 0x08, 0x18, 0x09] : List Byte) := by decide

theorem witness_StepRunsTheCommand : (next1 none b4 (.command { range 3 13 with cmd := 0x02 })).pending =
    [.command { range 3 13 with cmd := 0x02 }] ∧ decodeByte 0x02 = .ok .rdbits := by decide

theorem witness_StepKeepsInvariant : ∃ s t : State, s.Inv ∧ step s = .next t ∧
    t.resp = some { status := .success, rvals := some saVals } :=
  have ⟨t, h1, h2⟩ := outcome_some (o := step (next1 (some sa) saBuf (.command { Ports.idle with cmd := 9, buf := 7 })))
    (r := { status := .success, rvals := some saVals }) (by decide)
  ⟨_, t, sa_invariant _ _ (by decide), h1, h2⟩

theorem witness_EveryRunStaysSound : ∀ ev ∈ [HostEvent.command { Ports.idle with cmd := 1, specs := saSpecs },
    .buffer 7 z4, .command { values saVals with cmd := 8, buf := 7 }, .reset], ev.wf = true := by decide

/-- Both clauses: a BUILD that fills an empty store, a reset that empties a full one. -/
theorem witness_SchemaStoreWriters :
    ssOf (step (next1 none [] (.command { Ports.idle with cmd := 1, specs := saSpecs }))) = some sa ∧
    ssOf (step (next1 (some sa) [] .reset)) = none := by decide

theorem witness_SchemaStoreReaders : readsSchema .rdbits = false ∧ readsSchema .build = false ∧
    respOf (exec .rdbits (st none b4 (range 0 1))) = some { status := .success, rval := some 1 } ∧
    respOf (exec .rdbits (st (some sa) b4 (range 0 1))) = some { status := .success, rval := some 1 } := by decide

/-- For RDBITS, whose VAL differs, and for ENCODE, whose START differs and whose receiving buffer agrees. -/
theorem witness_UnusedPortsHaveNoEffect :
    (∀ port ∈ portsRead .rdbits, samePort (range 0 1) { range 0 1 with val := 9 } port) ∧
    (∀ port ∈ portsRead (.encode true), samePort (values saVals) { values saVals with start := 9 } port) ∧
    (values saVals).buf = ({ values saVals with start := 9 } : Ports).buf := by
  simp [portsRead, samePort, range, values]

theorem witness_NoTraceOfEarlierCommands : let s := next1 (some sa) b4 (.command (range 0 1))
    let s' := { s with resp := some { status := .badCount } }
    s'.pending = s.pending ∧ s'.ss = s.ss ∧ s'.mem = s.mem ∧ s' ≠ s := by decide

/-- Both clauses: a success and an error. -/
theorem witness_ResponsePorts :
    (respOf (exec .rdblob (st none b4 (range 0 8)))).map (·.statusByte) = some 0 ∧
    (respOf (exec .rdblob (st none b4 (range 33 0)))).map (·.statusByte) = some 0x20 := by decide

theorem witness_ErrorsChangeNothing :
    respOf (step (next1 none z4 (.command { range 30 3 with cmd := 3, buf := 7 }))) =
      some { status := .outOfBounds } := by decide

theorem witness_CommandsRaiseOnlyTheirErrors : (∀ sch, (st (some sa) b4 (field 3 (.int 0))).ss = some sch → sch.Valid) ∧
    respOf (exec (.fenc true) (st (some sa) b4 (field 3 (.int 0)))) = some { status := .badFieldIndex } :=
  ⟨by rintro sch ⟨⟩; exact sa_valid, by decide⟩

/-- The clause of WRBITS and the clause of FENC, each with bits outside the range on both sides. -/
theorem witness_FrameOfEveryCommand :
    respOf (exec .wrbits (st none b4 { range 5 6 with val := 0x2A })) =
      some { status := .success, buf := some [0xA5, 0x5C, 0xF0, 0x0F] } ∧
    addressedField (some sa) 1 = .ok ⟨nB, 13, 3, .unsignedInteger .w16⟩ ∧
    respOf (exec (.fenc false) (st (some sa) z4 (field 1 (.int 0x1ABC)))) =
      some { status := .success, buf := some [0x1A, 0xBC, 0, 0] } := by decide

theorem witness_RepeatingChangesNothing : ∃ t u, exec .wrbits (st none z4 { range 3 13 with val := 0x1ABC }) = .next t ∧
    exec .wrbits { t with ports := (st none z4 { range 3 13 with val := 0x1ABC }).ports } = .next u := ⟨_, _, rfl, rfl⟩

theorem witness_ResetEmptiesTheStore : (next1 (some sa) b4 .reset).pending = [.reset] := rfl

/-- A buffer event and no event. -/
theorem witness_HostOwnsItsBuffers : (next1 (some sa) b4 (.buffer 3 z4)).pending = [.buffer 3 z4] ∧
    State.reset.pending = [] := ⟨rfl, rfl⟩

/-- Both clauses: SA, and a list with a name twice. -/
theorem witness_BuildLoadsTheSchema : AcceptableSpecs saSpecs ∧ ¬ AcceptableSpecs [⟨nA, 3, 0⟩, ⟨nA, 4, 0⟩] :=
  ⟨⟨by decide, by decide, by decide, by decide, by decide⟩, fun h => absurd h.names (by decide)⟩

/-- V-B12. -/
theorem witness_LayoutInvariant : ∃ sch, buildSchema [⟨nA, 5, 5⟩, ⟨nB, 3, 0⟩, ⟨nC, 9, 5⟩] = .ok sch ∧
    sch.fields.map (·.bitOffset) = [0, 5, 8] ∧ sch.totalBits = 17 := ⟨_, rfl, by decide, by decide⟩

/-- One list for each clause: V-B3, V-B9, V-B10, V-B7, and a reserved kind code beside a zero width. -/
theorem witness_BuildReportsTheFirstFault :
    (6 ≤ (6 : BitVec 3).toNat ∧ ∀ g ∈ [(⟨nA, 0, 5⟩ : FieldSpec)], g.kindCode.toNat < 6) ∧
    (∀ g ∈ [(⟨nA, 9, 0⟩ : FieldSpec), ⟨nA, 0, 0⟩], g.kindCode.toNat < 6) ∧
    (∀ g ∈ [(⟨nA, 9, 0⟩ : FieldSpec)], g.bitWidth ≠ 0) ∧
    ((4 : BitVec 3).toNat < 5 ∧ 129 > 8 * 2 ^ (4 : BitVec 3).toNat) ∧
    (∀ g ∈ [(⟨nA, 3, 0⟩ : FieldSpec), ⟨nB, 8, 0⟩, ⟨nA, 5, 0⟩], g.kindCode.toNat < 6 ∧ g.bitWidth ≠ 0 ∧
      ¬ (g.kindCode.toNat < 5 ∧ g.bitWidth > 8 * 2 ^ g.kindCode.toNat)) ∧
    nA ∈ [(⟨nA, 3, 0⟩ : FieldSpec), ⟨nB, 8, 0⟩].map (·.name) ∧
    ([(⟨nA, 3, 0⟩ : FieldSpec), ⟨nB, 8, 0⟩].map (·.name)).Nodup := by decide

/-- A count at each edge past the legal ones; a range one bit past the end (V-C18); one that ends at it (V-C15); the
largest count (V-C25). -/
theorem witness_RdbitsReturnsTheBits : let s := fun B a n => st none B (range a n)
    let size := fun (t : State) => 8 * (t.mem.read t.ports.buf).length
    let last := fun (t : State) => t.ports.start + t.ports.len
    ((s b4 0 0).ports.len < 1 ∧ 128 < (s b4 0 129).ports.len) ∧
    (1 ≤ (s b4 32 1).ports.len ∧ (s b4 32 1).ports.len ≤ 128 ∧ size (s b4 32 1) < last (s b4 32 1)) ∧
    (1 ≤ (s b4 31 1).ports.len ∧ (s b4 31 1).ports.len ≤ 128 ∧ last (s b4 31 1) ≤ size (s b4 31 1)) ∧
    (let w := s (List.replicate 17 0x10) 8 128;
      1 ≤ w.ports.len ∧ w.ports.len ≤ 128 ∧ last w ≤ size w) := by decide

/-- A count at each edge past the legal ones; a range one bit past the end, whose value does not fit either (V-C45);
in a range that ends with the buffer the value at `2^n` and just below it; the largest count (V-C48). -/
theorem witness_WrbitsWritesTheRange : let s := fun B a n v => st none B { range a n with val := v }
    let size := fun (t : State) => 8 * (t.mem.read t.ports.buf).length
    let last := fun (t : State) => t.ports.start + t.ports.len
    ((s z4 0 0 0).ports.len < 1 ∧ 128 < (s z4 0 129 0).ports.len) ∧
    (1 ≤ (s z4 30 3 9).ports.len ∧ (s z4 30 3 9).ports.len ≤ 128 ∧ size (s z4 30 3 9) < last (s z4 30 3 9)) ∧
    (1 ≤ (s z4 29 3 8).ports.len ∧ (s z4 29 3 8).ports.len ≤ 128 ∧ last (s z4 29 3 8) ≤ size (s z4 29 3 8) ∧
      2 ^ (s z4 29 3 8).ports.len ≤ (s z4 29 3 8).ports.val.toNat) ∧
    (1 ≤ (s z4 29 3 7).ports.len ∧ (s z4 29 3 7).ports.len ≤ 128 ∧ last (s z4 29 3 7) ≤ size (s z4 29 3 7) ∧
      (s z4 29 3 7).ports.val.toNat < 2 ^ (s z4 29 3 7).ports.len) ∧
    (let w := s (List.replicate 17 0xFF) 3 128 0;
      w.ports.len ≤ 128 ∧ last w ≤ size w ∧ w.ports.val.toNat < 2 ^ w.ports.len) := by decide

/-- No bits at the end of the buffer, and no bits one past it. -/
theorem witness_RdblobReturnsTheImage : let s := fun a => st none b4 (range a 0)
    (s 32).ports.start + (s 32).ports.len ≤ 8 * ((s 32).mem.read (s 32).ports.buf).length ∧
    8 * ((s 33).mem.read (s 33).ports.buf).length < (s 33).ports.start + (s 33).ports.len := by decide

/-- A wrong length; a right one past the end; one that ends with the buffer and has its pad bits set. -/
theorem witness_WrblobWritesTheRange : let s := fun a n O => st none z4 { range a n with blob := O }
    (s 4 12 [0xAB]).ports.blob.length ≠ ceil8 12 ∧
    ((s 24 9 [1, 0xFF]).ports.blob.length = ceil8 9 ∧ 8 * ((s 24 9 []).mem.read 7).length < 24 + 9) ∧
    ((s 23 9 [0xFF, 0xFF]).ports.blob.length = ceil8 9 ∧ 23 + 9 ≤ 8 * ((s 23 9 []).mem.read 7).length) := by decide

theorem witness_AlignedReadIsBigEndian : 1 + 3 ≤ b4.length := by decide

/-- Both clauses, each in a range that ends with the buffer; the image has its pad bits set. -/
theorem witness_ReadAfterWrite :
    respOf (exec .wrbits (st none z4 { range 29 3 with val := 7 })) =
      some { status := .success, buf := some [0, 0, 0, 7] } ∧
    respOf (exec .wrblob (st none z4 { range 23 9 with blob := [0xFF, 0xFF] })) =
      some { status := .success, buf := some [0, 0, 1, 0xFF] } := by decide

/-- Each clause; the two writes are of touching ranges, one of each kind. -/
theorem witness_WriteAfterReadAndDisjointRanges :
    (∃ v, readBits b4 29 3 = .ok v) ∧ (∃ O, readBlob b4 32 0 = .ok O) ∧
    (∃ B1 B12, (RangeWrite.bits 3 13 0x1ABC).on z4 = .ok B1 ∧ (RangeWrite.blob 16 12 [0xFD, 0xEF]).on B1 = .ok B12) ∧
    (RangeWrite.bits 3 13 0x1ABC).first + (RangeWrite.bits 3 13 0x1ABC).size ≤
      (RangeWrite.blob 16 12 [0xFD, 0xEF]).first := ⟨⟨_, rfl⟩, ⟨_, rfl⟩, ⟨_, _, rfl, rfl⟩, by decide⟩

theorem witness_ReadsConcatenate : 3 + 13 + 16 ≤ 8 * b4.length := by decide

/-- Both clauses, the index just past the last field. -/
theorem witness_SchemaAndIndexChecks : (st none z4 Ports.idle).ss = none ∧ readsSchema .decode = true ∧
    (st (some sa) z4 (field 3 (.int 0))).ss = some sa ∧
    sa.fields.length ≤ (st (some sa) z4 (field 3 (.int 0))).ports.fidx := by decide

/-- Each clause for SA: both wrong kinds, `2^13` and `2^13 - 1` for the field of 13 bits, an image of the wrong
length, a buffer one byte short and one that just reaches the end of the field. -/
theorem witness_FencStoresTheField :
    let fB : FieldDescriptor := ⟨nB, 13, 3, .unsignedInteger .w16⟩
    let fC : FieldDescriptor := ⟨nC, 12, 16, .byteBlob⟩
    (sa.fields[1]? = some fB ∧ sa.fields[2]? = some fC) ∧ (fB.wrongKind (.blob []) ∧ fC.wrongKind (.int 0)) ∧
    2 ^ fB.bitWidth ≤ (0x2000 : Val).toNat ∧ ([0xEF] : Bytes).length ≠ ceil8 fC.bitWidth ∧
    (fB.takes true (.int 0x1FFF) ∧ 8 * ([0] : Bytes).length < fB.bitOffset + fB.bitWidth ∧
      fB.bitOffset + fB.bitWidth ≤ 8 * ([0, 0] : Bytes).length) ∧
    (fC.takes true (.blob [0xFD, 0xEF]) ∧ fC.bitOffset + fC.bitWidth ≤ 8 * z4.length) :=
  ⟨by decide, ⟨⟨_, rfl⟩, rfl⟩, by decide, by decide, ⟨⟨⟨_, rfl⟩, fun _ => by decide⟩, by decide, by decide⟩,
    ⟨rfl, by decide⟩, by decide⟩

/-- Both clauses, the buffer one byte short and just long enough. -/
theorem witness_FdecReturnsTheField : sa.Valid ∧ sa.fields[1]? = some ⟨nB, 13, 3, .unsignedInteger .w16⟩ ∧
    8 * ([0xFF] : Bytes).length < 3 + 13 ∧ 3 + 13 ≤ 8 * ([0xFF, 0xFF] : Bytes).length := ⟨sa_valid, by decide⟩

theorem witness_FencIsWrbitsOfTheTruncatedValue : sa.Valid ∧
    (⟨nB, 13, 3, .unsignedInteger .w16⟩ : FieldDescriptor) ∈ sa.fields := ⟨sa_valid, by decide⟩

/-- V-F3. -/
theorem witness_TruncationLaw : sa.fields[1]? = some ⟨nB, 13, 3, .unsignedInteger .w16⟩ ∧
    respOf (exec (.fenc false) (st (some sa) z4 (field 1 (.int 0xFABC)))) =
      some { status := .success, buf := some [0x1A, 0xBC, 0, 0] } := by decide

/-- V-F1, a value the field keeps, and another field that FDEC could read before. -/
theorem witness_FieldRoundTrip : sa.Valid ∧ sa.fields[0]? = some ⟨nA, 3, 0, .unsignedInteger .w8⟩ ∧
    respOf (exec (.fenc true) (st (some sa) z4 (field 0 (.int 5)))) =
      some { status := .success, buf := some [0xA0, 0, 0, 0] } ∧
    (⟨nA, 3, 0, .unsignedInteger .w8⟩ : FieldDescriptor).keeps (.int 5) ∧
    respOf (exec .fdec (st (some sa) z4 (field 2 (.int 5)))) =
      some { status := .success, rfval := some (.blob [0, 0]) } :=
  ⟨sa_valid, by decide, by decide, ⟨⟨_, rfl⟩, by decide⟩, by decide⟩

theorem witness_EncodeBuildsTheBuffer : (st (some sa) z4 (values saVals)).ss = some sa ∧ sa.Valid ∧
    ∀ f ∈ sa.fields, ∃ x, valueOf (st (some sa) z4 (values saVals)).ports.vals f.name = some x ∧ f.takes true x :=
  ⟨rfl, sa_valid, sa_takes true⟩

/-- Each clause with `a` as the field at fault and no field before it, and the last field after two that are taken. -/
theorem witness_EncodeReportsTheFirstFailure :
    let fA : FieldDescriptor := ⟨nA, 3, 0, .unsignedInteger .w8⟩
    let fC : FieldDescriptor := ⟨nC, 12, 16, .byteBlob⟩
    sa.Valid ∧ sa.fields = [] ++ fA :: sa.fields.tail ∧ sa.fields = sa.fields.take 2 ++ fC :: [] ∧
    (∀ g ∈ sa.fields.take 2, ∃ x, valueOf (saVals.take 2) g.name = some x ∧ g.takes true x) ∧
    valueOf (saVals.take 2) fC.name = none ∧ fA.wrongKind (.blob [5]) ∧ 2 ^ fA.bitWidth ≤ (8 : Val).toNat ∧
    ([0xEF] : Bytes).length ≠ ceil8 fC.bitWidth := by
  refine ⟨sa_valid, by decide, by decide, fun g hg => ?_, by decide, ⟨_, rfl⟩, by decide, by decide⟩
  have hg : g = ⟨nA, 3, 0, .unsignedInteger .w8⟩ ∨ g = ⟨nB, 13, 3, .unsignedInteger .w16⟩ := by
    simpa [sa] using hg
  obtain rfl | rfl := hg
  · exact ⟨_, rfl, ⟨_, rfl⟩, fun _ => by decide⟩
  · exact ⟨_, rfl, ⟨_, rfl⟩, fun _ => by decide⟩

/-- V-R2: values that do not fit and an image with its pad bits set. -/
theorem witness_EncodedBufferAsANumber : sa.Valid ∧
    respOf (exec (.encode false) (st (some sa) [] (values wideVals))) = some { status := .success, buf := some saBuf } :=
  ⟨sa_valid, by decide⟩

theorem witness_EncodeLooksUpSchemaNamesOnly :
    ∀ f ∈ sa.fields, valueOf (saVals ++ [(⟨9⟩, .int 1)]) f.name = valueOf saVals f.name := by decide

/-- Both clauses: one byte short, and exactly long enough. -/
theorem witness_DecodeReturnsEveryField : sa.Valid ∧ ([0xBA, 0xBC, 0xDE] : Bytes).length < ceil8 sa.totalBits ∧
    ceil8 sa.totalBits ≤ saBuf.length := ⟨sa_valid, by decide⟩

/-- V-R3: other pad bits and two bytes more. -/
theorem witness_DecodeIgnoresPadAndTrailer : sa.Valid ∧
    ceil8 sa.totalBits ≤ ([0xBA, 0xBC, 0xDE, 0xFF, 0x99, 0x77] : Bytes).length ∧ ceil8 sa.totalBits ≤ saBuf.length ∧
    ∀ i < sa.totalBits, bitNat [0xBA, 0xBC, 0xDE, 0xFF, 0x99, 0x77] i = bitNat saBuf i := ⟨sa_valid, by decide⟩

/-- V-R1 strict and V-R2: values that every field keeps, and values that none keeps. -/
theorem witness_RegisterRoundTrip : sa.Valid ∧
    respOf (exec (.encode true) (st (some sa) [] (values saVals))) = some { status := .success, buf := some saBuf } ∧
    respOf (exec (.encode false) (st (some sa) [] (values wideVals))) = some { status := .success, buf := some saBuf } :=
  ⟨sa_valid, by decide⟩

/-- V-R3, whose pad bits are set. -/
theorem witness_DecodeThenEncode : sa.Valid ∧
    respOf (exec .decode (st (some sa) [0xBA, 0xBC, 0xDE, 0xFF, 0x99, 0x77] Ports.idle)) =
      some { status := .success, rvals := some saVals } := ⟨sa_valid, by decide⟩

/-- Both kinds of image: pad bit 0 and pad bit 1. -/
theorem witness_MisalignedBlobRoundTrip :
    ((0x7F : Byte) :: List.replicate 59 0xFF).length = 60 ∧ bitNat (0x7F :: List.replicate 59 0xFF) 0 = 0 ∧
    ((0x80 : Byte) :: List.replicate 59 0).length = 60 ∧ bitNat (0x80 :: List.replicate 59 0) 0 = 1 := by decide

/-- An injective renaming that changes the order of the names, values named by it, and a decode that succeeds. -/
theorem witness_NamesMatterUpToEquality :
    let ρ : FieldName → FieldName := fun n => ⟨if n.id = 0 then 1 else if n.id = 1 then 0 else n.id⟩
    Function.Injective ρ ∧
    (∀ f ∈ sa.fields, valueOf [(nA, .int 0x1ABC), (nB, .int 5), (nC, .blob [0x0D, 0xEF])] (ρ f.name) =
      valueOf saVals f.name) ∧ decodeRegister sa saBuf = .ok saVals := by
  refine ⟨fun a b h => ?_, by decide, by decide⟩
  cases a; cases b
  simp only [FieldName.mk.injEq] at h ⊢
  split at h <;> split at h <;> (try split at h) <;> (try split at h) <;> omega

end Sys2Proof.Machine
end

section
/-! PROOFS. Renaming (`00_scope.md` D7): what an injective map of names does to BUILD's checks and layout, and to
the field loops of ENCODE and DECODE. No function of the model looks at a name except to compare it with another or
to report it. -/

namespace Sys2Proof.Machine

section Renaming

variable {ρ : FieldName → FieldName}

/-- The field with its name renamed: what `renameSchema` does to each field. -/
def renameField (ρ : FieldName → FieldName) (f : FieldDescriptor) : FieldDescriptor := { f with name := ρ f.name }

/-- The field spec with its name renamed: what `renameSpecs` does to each field spec. -/
def renameSpec (ρ : FieldName → FieldName) (f : FieldSpec) : FieldSpec := { f with name := ρ f.name }

@[simp] theorem renameField_name (f : FieldDescriptor) : (renameField ρ f).name = ρ f.name := rfl
@[simp] theorem renameSpec_name (f : FieldSpec) : (renameSpec ρ f).name = ρ f.name := rfl
@[simp] theorem renameSchema_fields (sch : RegisterSchema) :
    (renameSchema ρ sch).fields = sch.fields.map (renameField ρ) := rfl
@[simp] theorem renameSchema_totalBits (sch : RegisterSchema) : (renameSchema ρ sch).totalBits = sch.totalBits := rfl

theorem renameSpecs_eq_map (specs : List FieldSpec) : renameSpecs ρ specs = specs.map (renameSpec ρ) := rfl

/-! ## BUILD -/

/-- A check that does not look at the name finds the same field spec, renamed. -/
theorem find?_renameSpecs {p : FieldSpec → Bool} (hp : ∀ f, p (renameSpec ρ f) = p f) (specs : List FieldSpec) :
    (renameSpecs ρ specs).find? p = (specs.find? p).map (renameSpec ρ) := by
  have hcomp : p ∘ renameSpec ρ = p := funext hp
  rw [renameSpecs_eq_map, List.find?_map, hcomp]

@[simp] theorem renameSpecs_eq_nil_iff {specs : List FieldSpec} : renameSpecs ρ specs = [] ↔ specs = [] :=
  List.map_eq_nil_iff

@[simp] theorem renameSpecs_names (specs : List FieldSpec) :
    (renameSpecs ρ specs).map (·.name) = (specs.map (·.name)).map ρ := by
  simp [renameSpecs_eq_map]

@[simp] theorem renameSpecs_widths (specs : List FieldSpec) :
    (renameSpecs ρ specs).map (·.bitWidth) = specs.map (·.bitWidth) := by
  simp [renameSpecs]

/-- Injective renaming neither makes nor breaks a repetition of names (R111 (4)). -/
theorem firstRepeat_map (hρ : Function.Injective ρ) (seen names : List FieldName) :
    firstRepeat (seen.map ρ) (names.map ρ) = (firstRepeat seen names).map ρ := by
  induction names generalizing seen with
  | nil => rfl
  | cons x rest ih =>
    simp only [List.map_cons, firstRepeat, List.mem_map_of_injective hρ]
    split
    · rfl
    · exact ih (x :: seen)

/-- BUILD's checks fail on the renamed list as on the list itself, and report the renamed name (R111). -/
theorem schemaFault_renameSpecs (hρ : Function.Injective ρ) (specs : List FieldSpec) :
    schemaFault (renameSpecs ρ specs) = (schemaFault specs).map (renameError ρ) := by
  have hrepeat := firstRepeat_map hρ [] (specs.map (·.name))
  rw [List.map_nil] at hrepeat
  unfold schemaFault
  rw [find?_renameSpecs (p := hasBadKind) fun _ => rfl, find?_renameSpecs (p := fun f => f.bitWidth == 0) fun _ => rfl,
    find?_renameSpecs (p := tooWideForNative) fun _ => rfl, renameSpecs_names, hrepeat]
  cases specs.find? hasBadKind with
  | some f => rfl
  | none =>
    by_cases hempty : specs = []
    · simp [hempty, renameError]
    · simp only [renameSpecs_eq_nil_iff, hempty, if_false, Option.map_none]
      cases specs.find? fun f => f.bitWidth == 0 with
      | some f => rfl
      | none =>
        cases specs.find? tooWideForNative with
        | some f => rfl
        | none => cases firstRepeat [] (specs.map (·.name)) <;> rfl

/-- The layout depends on widths and kinds alone (R112, R113). -/
theorem layOut_renameSpecs (off : Nat) (specs : List FieldSpec) :
    layOut off (renameSpecs ρ specs) = (layOut off specs).map (renameField ρ) := by
  induction specs generalizing off with
  | nil => rfl
  | cons f rest ih => exact congrArg (renameField ρ ⟨f.name, f.bitWidth, off, specKind f⟩ :: ·) (ih _)

theorem buildSchema_renameSpecs (hρ : Function.Injective ρ) (specs : List FieldSpec) :
    buildSchema (renameSpecs ρ specs) = ((buildSchema specs).mapError (renameError ρ)).map (renameSchema ρ) := by
  unfold buildSchema
  rw [schemaFault_renameSpecs hρ, layOut_renameSpecs, renameSpecs_widths]
  cases schemaFault specs <;> rfl

/-! ## ENCODE -/

/-- The encode path of one field writes the same bits under another name, and reports that name (R160). -/
theorem encodeField_renameField (strict : Bool) (f : FieldDescriptor) (B : Bytes) (x : Value) :
    encodeField strict (renameField ρ f) B x = (encodeField strict f B x).mapError (renameError ρ) := by
  obtain ⟨name, bitWidth, bitOffset, valueKind⟩ := f
  cases valueKind with
  | unsignedInteger nw =>
    cases x with
    | blob O => rfl
    | int v =>
      simp only [encodeField, renameField, apply_ite (Except.mapError (renameError ρ))]
      rfl
  | byteBlob =>
    cases x with
    | int v => rfl
    | blob O =>
      simp only [encodeField, renameField, apply_ite (Except.mapError (renameError ρ))]
      rfl

/-- The field loop of ENCODE writes the same bits for renamed fields whose values stand under the renamed names. -/
theorem encodeFields_renameField (strict : Bool) {vals vals' : FieldValues} {fields : List FieldDescriptor}
    (hvals : ∀ f ∈ fields, valueOf vals' (ρ f.name) = valueOf vals f.name) (B : Bytes) :
    encodeFields strict vals' (fields.map (renameField ρ)) B =
      (encodeFields strict vals fields B).mapError (renameError ρ) := by
  induction fields generalizing B with
  | nil => rfl
  | cons f rest ih =>
    obtain ⟨hf, hrest⟩ := List.forall_mem_cons.1 hvals
    simp only [List.map_cons, encodeFields, renameField_name, hf, encodeField_renameField]
    cases valueOf vals f.name with
    | none => rfl
    | some x =>
      dsimp only
      cases encodeField strict f B x with
      | error e => rfl
      | ok B' => exact ih hrest B'

theorem encodeRegister_renameSchema (strict : Bool) {sch : RegisterSchema} {vals vals' : FieldValues}
    (hvals : ∀ f ∈ sch.fields, valueOf vals' (ρ f.name) = valueOf vals f.name) :
    encodeRegister strict (renameSchema ρ sch) vals' =
      (encodeRegister strict sch vals).mapError (renameError ρ) :=
  encodeFields_renameField strict hvals _

/-! ## DECODE -/

/-- The mapping `S` gives every renamed name the value that `R` gives the name. -/
def RenamesValues (ρ : FieldName → FieldName) (R S : FieldValues) : Prop := ∀ nm, valueOf S (ρ nm) = valueOf R nm

theorem RenamesValues.nil : RenamesValues ρ [] [] := fun _ => rfl

theorem RenamesValues.setValue (hρ : Function.Injective ρ) {R S : FieldValues} (h : RenamesValues ρ R S)
    (nm : FieldName) (x : Value) : RenamesValues ρ (setValue R nm x) (setValue S (ρ nm) x) := by
  intro nm'
  by_cases hnm : nm' = nm
  · rw [hnm, valueOf_setValue_same, valueOf_setValue_same]
  · rw [valueOf_setValue_other _ _ hnm, valueOf_setValue_other _ _ (hρ.ne hnm), h nm']

/-- The decode path of one field does not look at the name (R161). -/
theorem decodeField_renameField (f : FieldDescriptor) (B : Bytes) :
    decodeField (renameField ρ f) B = decodeField f B := rfl

/-- The field loop of DECODE keeps renamed mappings renamed, in whatever order each lists its names (log 7). -/
theorem decodeFields_renameField (hρ : Function.Injective ρ) {B : Bytes} {fields : List FieldDescriptor}
    {R S R' : FieldValues} (hRS : RenamesValues ρ R S) (h : decodeFields B fields R = .ok R') :
    ∃ S', decodeFields B (fields.map (renameField ρ)) S = .ok S' ∧ RenamesValues ρ R' S' := by
  induction fields generalizing R S with
  | nil =>
    cases h
    exact ⟨S, rfl, hRS⟩
  | cons f rest ih =>
    simp only [List.map_cons, decodeFields, decodeField_renameField] at h ⊢
    cases hf : decodeField f B with
    | error e => simp [hf] at h
    | ok x =>
      simp only [hf] at h ⊢
      exact ih (hRS.setValue hρ f.name x) h

theorem decodeRegister_renameSchema (hρ : Function.Injective ρ) {sch : RegisterSchema} {B : Bytes} {R : FieldValues}
    (h : decodeRegister sch B = .ok R) :
    ∃ S, decodeRegister (renameSchema ρ sch) B = .ok S ∧ RenamesValues ρ R S := by
  unfold decodeRegister at h ⊢
  rw [renameSchema_totalBits]
  split at h
  · cases h
  · rw [if_neg ‹_›, renameSchema_fields]
    exact decodeFields_renameField hρ .nil h

end Renaming

/-! ## The obligation -/

/-- Settles O51: BUILD, ENCODE and DECODE each commute with an injective renaming. -/
theorem namesMatterUpToEquality : Obligations.NamesMatterUpToEquality := by
  intro ρ hρ
  refine ⟨fun specs => ?_, fun strict sch vals vals' hvals => ?_, fun sch B R h => decodeRegister_renameSchema hρ h⟩
  · rw [buildSchema_renameSpecs hρ]
    cases buildSchema specs <;> rfl
  · rw [encodeRegister_renameSchema strict hvals]
    cases encodeRegister strict sch vals <;> rfl

end Sys2Proof.Machine
end

section
/-! PROOFS. Kind codes and the concrete form of a Value (`30_encoding.md` R85, R86): each reads back to what it is the
form of, and to nothing else. -/

namespace Sys2Proof.Machine

/-- A concrete form is read only where tag, count and payload agree (R86). -/
theorem decodeValue_eq_some_iff (x : Value) (c : BitVec 1 × (Val ⊕ Nat × Bytes)) :
    decodeValue c = some x ↔ c = encodeValue x := by
  obtain ⟨tag, v | ⟨n, o⟩⟩ := c
  · cases x <;> simp [decodeValue, encodeValue]
  · cases x with
    | int w => simp [decodeValue, encodeValue]
    | blob o' =>
      simp only [decodeValue, encodeValue, Option.ite_none_right_eq_some, Option.some.injEq, Value.blob.injEq,
        Prod.mk.injEq, Sum.inr.injEq]
      constructor
      · rintro ⟨⟨rfl, rfl⟩, rfl⟩; exact ⟨rfl, rfl, rfl⟩
      · rintro ⟨rfl, rfl, rfl⟩; exact ⟨⟨rfl, rfl⟩, rfl⟩

/-- Settles O5: `decodeValue` is the partial inverse of `encodeValue`. -/
theorem valueFormReadsBack : Obligations.ValueFormReadsBack :=
  ⟨decodeValue_eq_some_iff, fun _ => rfl, fun _ => rfl⟩

theorem kindOfCode_codeOfKind (k : ValueKind) : kindOfCode (codeOfKind k) = some k := by
  cases k with
  | unsignedInteger nw => cases nw <;> rfl
  | byteBlob => rfl

/-- A code that names a kind is that kind's code: the reserved codes name none (R85). -/
theorem codeOfKind_of_kindOfCode : ∀ c, ∀ k ∈ kindOfCode c, c = codeOfKind k := by decide

/-- Codes 0 to 4 name integer kinds, each of twice the native width of the one before (R85). -/
theorem kindOfCode_of_le_four {c : BitVec 3} (h : c.toNat ≤ 4) :
    ∃ nw, kindOfCode c = some (.unsignedInteger nw) ∧ nw.bits = 8 * 2 ^ c.toNat := by
  have hc : ∀ c : BitVec 3, c.toNat ≤ 4 → c = 0 ∨ c = 1 ∨ c = 2 ∨ c = 3 ∨ c = 4 := by decide
  obtain rfl | rfl | rfl | rfl | rfl := hc c h
  exacts [⟨.w8, rfl, rfl⟩, ⟨.w16, rfl, rfl⟩, ⟨.w32, rfl, rfl⟩, ⟨.w64, rfl, rfl⟩, ⟨.w128, rfl, rfl⟩]

/-- Settles O6: the eight codes one by one, and the two directions of reading a kind's code back. -/
theorem kindCodes : Obligations.KindCodes :=
  ⟨fun _ => kindOfCode_of_le_four, rfl, rfl, rfl, fun k c =>
    ⟨codeOfKind_of_kindOfCode c k, fun h => h ▸ kindOfCode_codeOfKind k⟩⟩

end Sys2Proof.Machine
end

section
/-! PROOFS. One rule for each event of the HOST (`70_reset_and_hazards.md` R240), that `exec` and `step` always answer
(`10_state.md` R36), and what they leave unchanged or read nothing of (R21, R24). -/

namespace Sys2Proof.Machine

section Rules

variable {s t : State} {p : Ports} {rest : List HostEvent} {i : Instr}

/-! ## What a step does, event by event -/

theorem step_idle (hp : s.pending = []) : step s = .next s := by simp only [step, hp]; rfl

theorem step_reset (hp : s.pending = .reset :: rest) : step s = hostReset s rest := by simp only [step, hp]

theorem step_buffer {h : Nat} {B : Bytes} (hp : s.pending = .buffer h B :: rest) :
    step s = hostBuffer s h B rest := by simp only [step, hp]

theorem step_illegal {e : DecodeError} (hp : s.pending = .command p :: rest) (hd : decodeByte p.cmd = .error e) :
    step s = illegalCommand (s.present p rest) := by simp only [step, hp, hd]

theorem step_command (hp : s.pending = .command p :: rest) (hd : decodeByte p.cmd = .ok i) :
    step s = exec i (s.present p rest) := by simp only [step, hp, hd]

/-! ## Every command and every step answers -/

theorem exec_next (i : Instr) (s : State) : ∃ t, exec i s = .next t := by
  cases i <;> exact State.finish_next _ _ _

theorem step_next (s : State) : ∃ t, step s = .next t := by
  cases hp : s.pending with
  | nil => exact ⟨s, step_idle hp⟩
  | cons ev rest =>
    cases ev with
    | reset => exact ⟨_, step_reset hp⟩
    | buffer h B => exact ⟨_, step_buffer hp⟩
    | command p =>
      cases hd : decodeByte p.cmd with
      | error e => exact ⟨_, step_illegal hp hd⟩
      | ok i => rw [step_command hp hd]; exact exec_next i _

/-! ## What a command leaves -/

/-- A command takes no event but its own, which `step` has taken already (R240). -/
theorem exec_pending (h : exec i s = .next t) : t.pending = s.pending := by
  obtain ⟨e, rfl⟩ | hok := exec_cases h
  · rfl
  · cases hok <;> rfl

/-- The operands leave the ports with the response (R24; log 2). -/
theorem exec_ports (h : exec i s = .next t) : t.ports = Ports.idle := by
  obtain ⟨e, rfl⟩ | hok := exec_cases h
  · rfl
  · cases hok <;> rfl

/-- A command leaves the schema store, or it is a BUILD whose field specs are accepted (R21, R114). -/
theorem exec_ss (h : exec i s = .next t) :
    t.ss = s.ss ∨ i = .build ∧ ∃ sch, buildSchema s.ports.specs = .ok sch ∧ t.ss = some sch := by
  obtain ⟨e, rfl⟩ | hok := exec_cases h
  · exact .inl rfl
  · cases hok with
    | build sch hsch => exact .inr ⟨rfl, sch, hsch, rfl⟩
    | rdbits | wrbits | rdblob | wrblob | fenc | fdec | encode | decode => exact .inl rfl

theorem exec_ss_of_ne_build (h : exec i s = .next t) (hi : i ≠ .build) : t.ss = s.ss :=
  (exec_ss h).resolve_right fun hb => hi hb.1

/-- A command that returns no buffer leaves every buffer (R25, R62). -/
theorem exec_mem (h : exec i s = .next t) (hi : .buf ∉ portsProduced i) : t.mem = s.mem := by
  obtain ⟨e, rfl⟩ | hok := exec_cases h
  · rfl
  · cases hok with
    | build | rdbits | rdblob | fdec | decode => rfl
    | wrbits | wrblob | fenc | encode => simp [portsProduced] at hi

/-- A command leaves every buffer but the one numbered BUF (R25; log 3, log 5). -/
theorem exec_mem_other (h : exec i s = .next t) {k : Nat} (hk : k ≠ s.ports.buf) : t.mem.read k = s.mem.read k := by
  obtain ⟨e, rfl⟩ | hok := exec_cases h
  · rfl
  · cases hok with
    | build | rdbits | rdblob | fdec | decode => rfl
    | wrbits B | wrblob B | fenc _ B | encode _ B => exact s.mem.read_write_other B hk

/-! ## What a command does not read -/

/-- No command reads the last response, and each overwrites it (R26). -/
theorem exec_resp_irrelevant (i : Instr) (s : State) (r : Option Response) :
    exec i { s with resp := r } = exec i s := by
  cases i <;> rfl

/-- Two commands that end in one result of their checks end in states related as their errors and their successes
are. -/
theorem State.finish_related {α : Type} {s s' t u : State} {x : Except EngineError α} {done done' : α → State}
    (R : State → State → Prop) (ht : s.finish x done = .next t) (hu : s'.finish x done' = .next u)
    (herr : ∀ e, R (s.raise e) (s'.raise e)) (hok : ∀ a, R (done a) (done' a)) : R t u := by
  cases x with
  | error e => cases ht; cases hu; exact herr e
  | ok a => cases ht; cases hu; exact hok a

/-- The two states differ in the schema store and the ports at most. -/
def AnswerAlike (t u : State) : Prop := t.resp = u.resp ∧ t.mem = u.mem ∧ t.pending = u.pending

/-- A command that does not read the schema store answers alike whatever it holds (R21, R84). -/
theorem exec_answerAlike {u : State} {a b : Option RegisterSchema} (hi : readsSchema i = false)
    (ht : exec i { s with ss := a } = .next t) (hu : exec i { s with ss := b } = .next u) : AnswerAlike t u := by
  cases i with
  | fenc | fdec | encode | decode => cases hi
  | build | rdbits | wrbits | rdblob | wrblob =>
    exact State.finish_related AnswerAlike ht hu (fun _ => ⟨rfl, rfl, rfl⟩) (fun _ => ⟨rfl, rfl, rfl⟩)

/-! ## The response -/

theorem Status.code_eq_zero {st : Status} (h : st.code = 0) : st = .success := by
  revert h; cases st <;> decide

theorem EngineError.statusByte_ne_zero (e : EngineError) : e.response.statusByte ≠ 0 :=
  fun h => e.status_ne_success (Status.code_eq_zero h)

/-- A success answers with STATUS 0, no name, and the result ports of R84. -/
theorem Success.resp (h : Success s i t) :
    ∃ r, t.resp = some r ∧ r.statusByte = 0 ∧ r.ename = none ∧ r.produced = portsProduced i := by
  cases h <;> exact ⟨_, rfl, rfl, rfl, rfl⟩

theorem exec_resp (h : exec i s = .next t) : ∃ r, t.resp = some r ∧
    (r.statusByte = 0 → r.ename = none ∧ r.produced = portsProduced i) ∧ (r.statusByte ≠ 0 → r.produced = []) := by
  obtain ⟨e, rfl⟩ | hok := exec_cases h
  · exact ⟨e.response, rfl, fun h0 => absurd h0 e.statusByte_ne_zero, fun _ => rfl⟩
  · obtain ⟨r, hr, hst, hn, hp⟩ := hok.resp
    exact ⟨r, hr, fun _ => ⟨hn, hp⟩, fun h0 => absurd hst h0⟩

/-! ## What a step does to the HOST's events and the ports -/

theorem step_pending (h : step s = .next t) : t.pending = s.pending.tail := by
  obtain ⟨hp, rfl⟩ | ⟨rest, hp, rfl⟩ | ⟨n, B, rest, hp, rfl⟩ | ⟨p, rest, e, hp, -, rfl⟩ | ⟨p, rest, i, hp, -, hx⟩ :=
    step_cases h
  · simp [hp]
  · simp [hp]
  · simp [hp]
  · simp [hp]
  · simp [exec_pending hx, hp]

theorem step_quiescent (hs : s.Quiescent) (h : step s = .next t) : t.Quiescent := by
  obtain ⟨-, rfl⟩ | ⟨rest, -, rfl⟩ | ⟨n, B, rest, -, rfl⟩ | ⟨p, rest, e, -, -, rfl⟩ | ⟨p, rest, i, -, -, hx⟩ :=
    step_cases h
  · exact hs
  · rfl
  · exact hs
  · rfl
  · exact exec_ports hx

end Rules

/-! ## The obligations -/

/-- Settles O9: the rule of `step` for a command. -/
theorem stepRunsTheCommand : Obligations.StepRunsTheCommand :=
  fun _ _ _ _ hp hd => step_command hp hd

/-- Settles O10: `step` and `exec` never leave `next`, and each arm of `exec` gives a response. -/
theorem everyStepAnswers : Obligations.EveryStepAnswers := by
  refine ⟨step_next, fun i s => ?_⟩
  obtain ⟨t, ht⟩ := exec_next i s
  obtain ⟨r, hr, -⟩ := exec_resp ht
  exact ⟨t, r, ht, hr⟩

/-- Settles O15: a command that does not read SS goes on with one result of its checks, whatever SS holds. -/
theorem schemaStoreReaders : Obligations.SchemaStoreReaders := by
  intro i s t u a b hi ht hu
  obtain ⟨hresp, hmem, hpending⟩ := exec_answerAlike hi ht hu
  exact ⟨hresp, hmem, hpending, fun hb => ⟨exec_ss_of_ne_build ht hb, exec_ss_of_ne_build hu hb⟩⟩

/-- Settles O17: presenting a command overwrites the ports, and the response is not read. -/
theorem noTraceOfEarlierCommands : Obligations.NoTraceOfEarlierCommands := by
  intro s s' p rest hp hpending hss hmem
  have hp' : s'.pending = .command p :: rest := hpending.trans hp
  have hpresent : s'.present p rest = { s.present p rest with resp := s'.resp } := by
    simp only [State.present, hss, hmem]
  cases hd : decodeByte p.cmd with
  | error e => rw [step_illegal hp hd, step_illegal hp' hd, hpresent]; rfl
  | ok i => rw [step_command hp hd, step_command hp' hd, hpresent, exec_resp_irrelevant]

/-- Settles O18: an error's response has no result port, a success's those of its arm. -/
theorem responsePorts : Obligations.ResponsePorts := fun _ _ _ h => exec_resp h

/-- Settles O23: the rule of `step` for a reset. -/
theorem resetEmptiesTheStore : Obligations.ResetEmptiesTheStore :=
  ⟨rfl, fun _ _ hp => ⟨_, step_reset hp, rfl, rfl, rfl⟩⟩

/-- Settles O24: the rules of `step` for a buffer event and for no event. -/
theorem hostOwnsItsBuffers : Obligations.HostOwnsItsBuffers :=
  ⟨fun s h B _ hp => ⟨_, step_buffer hp, s.mem.read_write_same h B, fun _ hk => s.mem.read_write_other B hk, rfl, rfl,
    rfl⟩, fun _ hp => step_idle hp⟩

/-- Only the byte 0x01 names BUILD (R81, R82). -/
theorem eq_one_of_decodeByte_build : ∀ b : Byte, decodeByte b = .ok .build → b = 0x01 := by decide

/-- Settles O14: of the events a step can take, only a reset and an accepted BUILD set SS. -/
theorem schemaStoreWriters : Obligations.SchemaStoreWriters := by
  intro s t h hne
  obtain ⟨-, rfl⟩ | ⟨rest, hp, rfl⟩ | ⟨n, B, rest, -, rfl⟩ | ⟨p, rest, e, -, -, rfl⟩ | ⟨p, rest, i, hp, hd, hx⟩ :=
    step_cases h
  · exact absurd rfl hne
  · exact .inl ⟨rest, hp, rfl⟩
  · exact absurd rfl hne
  · exact absurd rfl hne
  · obtain hss | ⟨rfl, sch, hsch, hss⟩ := exec_ss hx
    · exact absurd hss hne
    · exact .inr ⟨p, rest, sch, hp, eq_one_of_decodeByte_build _ hd, hsch, hss⟩

end Sys2Proof.Machine
end

section
/-! PROOFS. The invariant of a run (`10_state.md` R21, R23): each update of State keeps it, so each command, each step
and each run does. -/

namespace Sys2Proof.Machine

section Invariant

variable {s t : State}

/-! ## Canonical maps -/

theorem Response.wf_of_rvals_none {r : Response} (h : r.rvals = none) : r.wf := by simp [Response.wf, h]

theorem decodeFields_wf {B : Bytes} {fields : List FieldDescriptor} {R R' : FieldValues} (hR : FieldValues.wf R)
    (h : decodeFields B fields R = .ok R') : FieldValues.wf R' := by
  induction fields generalizing R with
  | nil => cases h; exact hR
  | cons f rest ih =>
    simp only [decodeFields] at h
    split at h
    · cases h
    · exact ih (setValue_wf hR _ _) h

/-- DECODE returns a map in canonical form (R181; log 7). -/
theorem decodeLoaded_wf {ss : Option RegisterSchema} {B : Bytes} {R : FieldValues} (h : decodeLoaded ss B = .ok R) :
    FieldValues.wf R := by
  unfold decodeLoaded decodeRegister at h
  split at h
  · cases h
  · split at h
    · cases h
    · exact decodeFields_wf fieldValues_wf_nil h

/-! ## Each update of State keeps the invariant -/

theorem State.Inv.answer (hs : s.Inv) {r : Response} (hr : r.wf) : (s.answer r).Inv :=
  { hs with ports := idle_wf, resp := by rintro _ ⟨⟩; exact hr }

theorem State.Inv.raise (hs : s.Inv) (e : EngineError) : (s.raise e).Inv :=
  hs.answer (Response.wf_of_rvals_none rfl)

theorem State.Inv.writeBuffer (hs : s.Inv) (h : Nat) (B : Bytes) : { s with mem := s.mem.write h B }.Inv :=
  { hs with mem := Memory.write_wf hs.mem h B }

theorem State.Inv.returnBuffer (hs : s.Inv) (B : Bytes) : (s.returnBuffer B).Inv :=
  (hs.writeBuffer s.ports.buf B).answer (Response.wf_of_rvals_none rfl)

theorem State.Inv.replaceSchema (hs : s.Inv) {sch : RegisterSchema} (hv : sch.Valid) : { s with ss := some sch }.Inv :=
  { hs with schema := by rintro _ ⟨⟩; exact hv }

theorem State.Inv.loadSchema (hs : s.Inv) {sch : RegisterSchema} (hv : sch.Valid) : (s.loadSchema sch).Inv :=
  (hs.replaceSchema hv).answer (Response.wf_of_rvals_none rfl)

/-- The invariant speaks of the event that comes next and of those after it. -/
theorem State.Inv.pending_cons (hs : s.Inv) {ev : HostEvent} {rest : List HostEvent} (hp : s.pending = ev :: rest) :
    ev.wf = true ∧ ∀ e ∈ rest, e.wf = true :=
  List.forall_mem_cons.1 (hp ▸ hs.pending)

theorem State.Inv.present (hs : s.Inv) {p : Ports} {rest : List HostEvent} (hp : s.pending = .command p :: rest) :
    (s.present p rest).Inv :=
  have ⟨hcommand, hrest⟩ := hs.pending_cons hp
  { hs with ports := of_decide_eq_true hcommand, pending := hrest }

/-! ## Commands, steps and runs keep it -/

theorem exec_inv {i : Instr} (hs : s.Inv) (h : exec i s = .next t) : t.Inv := by
  obtain ⟨e, rfl⟩ | hok := exec_cases h
  · exact hs.raise e
  · cases hok with
    | build sch hsch => exact hs.loadSchema (buildSchema_valid hsch)
    | rdbits | rdblob | fdec => exact hs.answer (Response.wf_of_rvals_none rfl)
    | wrbits B | wrblob B | fenc _ B | encode _ B => exact hs.returnBuffer B
    | decode R hR => exact hs.answer (by rintro _ ⟨⟩; exact decodeLoaded_wf hR)

theorem step_inv (hs : s.Inv) (h : step s = .next t) : t.Inv := by
  obtain ⟨-, rfl⟩ | ⟨rest, hp, rfl⟩ | ⟨n, B, rest, hp, rfl⟩ | ⟨p, rest, e, hp, -, rfl⟩ | ⟨p, rest, i, hp, -, hx⟩ :=
    step_cases h
  · exact hs
  · exact { hs with schema := nofun, ports := idle_wf, resp := nofun, pending := (hs.pending_cons hp).2 }
  · exact { hs.writeBuffer n B with pending := (hs.pending_cons hp).2 }
  · exact (hs.present hp).raise .illegalCommand
  · exact exec_inv (hs.present hp) hx

theorem reset_inv : State.reset.Inv := ⟨nofun, memory_wf_nil, idle_wf, nofun, nofun⟩

theorem run_succ {s' : State} (h : step s = .next s') (k : Nat) :
    Host.Core.run core (k + 1) s = Host.Core.run core k s' := by
  have hstep : core.step s = .next s' := h
  simp only [Host.Core.run, hstep]

/-- A run from a sound state at rest never stops, stays sound and at rest, and takes an event a step (R36, R240). -/
theorem run_sound (k : Nat) (hs : s.Inv) (hq : s.Quiescent) :
    ∃ t, Host.Core.run core k s = .next t ∧ State.Inv t ∧ State.Quiescent t ∧ t.pending = s.pending.drop k := by
  induction k generalizing s with
  | zero => exact ⟨s, rfl, hs, hq, rfl⟩
  | succ k ih =>
    obtain ⟨s', hstep⟩ := step_next s
    obtain ⟨t, hrun, hinv, hquiet, hpending⟩ := ih (step_inv hs hstep) (step_quiescent hq hstep)
    refine ⟨t, by rw [run_succ hstep, hrun], hinv, hquiet, ?_⟩
    rw [hpending, step_pending hstep, List.drop_tail]

end Invariant

/-! ## The obligations -/

/-- Settles O11: every field of the reset state is empty. -/
theorem resetMeetsInvariant : Obligations.ResetMeetsInvariant := ⟨reset_inv, rfl, rfl⟩

/-- Settles O12, by the cases of a step. -/
theorem stepKeepsInvariant : Obligations.StepKeepsInvariant := fun _ _ hs h => step_inv hs h

/-- Settles O13, by induction on the number of steps. -/
theorem everyRunStaysSound : Obligations.EveryRunStaysSound :=
  fun _ hev k => run_sound k { reset_inv with pending := hev } rfl

end Sys2Proof.Machine
end

section
/-! PROOFS. The frame of every command (`10_state.md` R21, R25; `20_memory.md` R57, R62): a write changes no bit
outside the range it stores to. -/

namespace Sys2Proof.Machine

section Frame

variable {s t : State}

/-! ## The writes of the cursor -/

theorem bitNat_eq_bitAt (B : Bytes) (i : Nat) : bitNat B i = (bitAt B i).toNat := (bitAt_toNat B i).symm

theorem sameOutside_refl (B : Bytes) (a n : Nat) : sameOutside B B a n := ⟨rfl, fun _ _ _ => rfl⟩

theorem sameOutside_bitsWrite (B : Bytes) (a n v : Nat) : sameOutside (bitsWrite B a n v) B a n :=
  ⟨bitsWrite_length B a n v, fun i _ hi => by
    rw [bitNat_eq_bitAt, bitNat_eq_bitAt, bitAt_bitsWrite_out B a n v i hi]⟩

/-- WRBITS's write succeeds exactly on a count, a range and a value that pass its checks (R131, R134). -/
theorem writeBits_ok {A B : Bytes} {a n : Nat} {v : Val} : writeBits B a n v = .ok A ↔
    (1 ≤ n ∧ n ≤ 128) ∧ a + n ≤ bitLen B ∧ v.toNat < 2 ^ n ∧ A = bitsWrite B a n v.toNat := by
  unfold writeBits Config.maxCount
  split
  · simp only [reduceCtorEq, false_iff]; omega
  · split
    · simp only [reduceCtorEq, false_iff]; omega
    · split
      · simp only [reduceCtorEq, false_iff]; omega
      · rw [Except.ok.injEq]
        constructor
        · rintro rfl; exact ⟨by omega, by omega, by omega, rfl⟩
        · rintro ⟨-, -, -, rfl⟩; rfl

/-- WRBLOB's write succeeds exactly on an image of the range's length and a range in bounds (R133, R134). -/
theorem writeBlob_ok {A B O : Bytes} {a L : Nat} : writeBlob B a L O = .ok A ↔
    O.length = ceil8 L ∧ a + L ≤ bitLen B ∧ A = blobWrite B a L O := by
  unfold writeBlob
  split
  · simp only [reduceCtorEq, false_iff]; omega
  · split
    · simp only [reduceCtorEq, false_iff]; omega
    · rw [Except.ok.injEq]
      constructor
      · rintro rfl; exact ⟨by omega, by omega, rfl⟩
      · rintro ⟨-, -, rfl⟩; rfl

theorem sameOutside_writeBits {A B : Bytes} {a n : Nat} {v : Val} (h : writeBits B a n v = .ok A) :
    sameOutside A B a n := by
  obtain ⟨-, -, -, rfl⟩ := writeBits_ok.1 h
  exact sameOutside_bitsWrite B a n v.toNat

theorem sameOutside_writeBlob {A B O : Bytes} {a L : Nat} (h : writeBlob B a L O = .ok A) : sameOutside A B a L := by
  obtain ⟨hO, -, rfl⟩ := writeBlob_ok.1 h
  rw [blobWrite_eq_bitsWrite B a L hO]
  exact sameOutside_bitsWrite B a L _

theorem sameOutside_encodeField {strict : Bool} {f : FieldDescriptor} {A B : Bytes} {x : Value}
    (h : encodeField strict f B x = .ok A) : sameOutside A B f.bitOffset f.bitWidth := by
  obtain ⟨-, -, rfl⟩ := encodeField_ok.1 h
  exact sameOutside_bitsWrite B f.bitOffset f.bitWidth _

/-! ## The commands that store to a range of the buffer they are handed -/

/-- If a write keeps the bits outside a range of the buffer it is handed, so does the command, which stores the
buffer or fails (R25, R205; log 3). -/
theorem finish_returnBuffer_sameOutside {x : Except EngineError Bytes} {a n : Nat}
    (hx : ∀ B, x = .ok B → sameOutside B s.handed a n) (h : s.finish x s.returnBuffer = .next t) :
    sameOutside (t.mem.read s.ports.buf) (s.mem.read s.ports.buf) a n := by
  obtain ⟨e, -, rfl⟩ | ⟨B, hB, rfl⟩ := State.finish_cases _ _ _ h
  · exact sameOutside_refl _ a n
  · rw [State.returnBuffer_mem, Memory.read_write_same]
    exact hx B hB

theorem encodeAddressed_of_addressed {strict : Bool} {ss : Option RegisterSchema} {B : Bytes} {fidx : Nat} {x : Value}
    {f : FieldDescriptor} (h : addressedField ss fidx = .ok f) :
    encodeAddressed strict ss B fidx x = encodeField strict f B x := by
  simp only [encodeAddressed, h]

theorem wrbits_sameOutside (h : exec .wrbits s = .next t) :
    sameOutside (t.mem.read s.ports.buf) (s.mem.read s.ports.buf) s.ports.start s.ports.len :=
  finish_returnBuffer_sameOutside (fun _ => sameOutside_writeBits) h

theorem wrblob_sameOutside (h : exec .wrblob s = .next t) :
    sameOutside (t.mem.read s.ports.buf) (s.mem.read s.ports.buf) s.ports.start s.ports.len :=
  finish_returnBuffer_sameOutside (fun _ => sameOutside_writeBlob) h

theorem fenc_sameOutside {strict : Bool} {f : FieldDescriptor} (h : exec (.fenc strict) s = .next t)
    (hf : addressedField s.ss s.ports.fidx = .ok f) :
    sameOutside (t.mem.read s.ports.buf) (s.mem.read s.ports.buf) f.bitOffset f.bitWidth :=
  finish_returnBuffer_sameOutside
    (fun _ hB => sameOutside_encodeField ((encodeAddressed_of_addressed hf).symm.trans hB)) h

end Frame

/-! ## The obligation -/

/-- Settles O21: the frame lemma of each part of the state, and of each command that stores to a range. -/
theorem frameOfEveryCommand : Obligations.FrameOfEveryCommand := by
  intro i s t h
  have hreads : ∀ j ∈ [Instr.build, .rdbits, .rdblob, .fdec, .decode], .buf ∉ portsProduced j := by decide
  refine ⟨exec_pending h, exec_ss_of_ne_build h, fun hi => exec_mem h (hreads i hi), fun _ => exec_mem_other h, ?_, ?_⟩
  · rintro (rfl | rfl)
    · exact wrbits_sameOutside h
    · exact wrblob_sameOutside h
  · rintro strict f rfl hf
    exact fenc_sameOutside h hf

end Sys2Proof.Machine
end

section
/-! PROOFS. Ranges of bits as numbers (`20_memory.md` R52 to R60), and what the reads and writes of the Bit Cursor
give and leave (`41_bit_cursor.md` R130 to R139). -/

namespace Sys2Proof.Machine

section Ranges

variable {A B O : Bytes} {a n L : Nat}

/-! ## Digits as a sum -/

theorem bitsValue_eq_sum (f : Nat → Bool) (n : Nat) :
    bitsValue f n = ∑ j ∈ Finset.range n, (f j).toNat * 2 ^ (n - 1 - j) := by
  induction n with
  | zero => rfl
  | succ n ih =>
    have hdouble : ∀ j ∈ Finset.range n,
        (f j).toNat * 2 ^ (n + 1 - 1 - j) = 2 * ((f j).toNat * 2 ^ (n - 1 - j)) := by
      intro j hj
      have hj := Finset.mem_range.1 hj
      rw [show n + 1 - 1 - j = n - 1 - j + 1 by omega, Nat.pow_succ]
      ring
    rw [Finset.sum_range_succ, Finset.sum_congr rfl hdouble, ← Finset.mul_sum, ← ih]
    simp [bitsValue]

/-- The number a range reads as is the sum R52 writes. -/
theorem bitsRead_eq_bitSum (B : Bytes) (a n : Nat) : bitsRead B a n = bitSum B a n := by
  simp only [bitsRead, bitSum, bitsValue_eq_sum, bitNat_eq_bitAt]

theorem bitsRead_add (B : Bytes) (a m n : Nat) :
    bitsRead B a (m + n) = bitsRead B a m * 2 ^ n + bitsRead B (a + m) n := by
  simp only [bitsRead, bitsValue_add, Nat.add_assoc]

/-! ## Whole bytes -/

/-- The bits of a slice of whole bytes are the bits of the buffer from the slice's first byte on (R50, R51). -/
theorem bitAt_take_drop (B : Bytes) (k : Nat) {m j : Nat} (hj : j < 8 * m) :
    bitAt ((B.drop k).take m) j = bitAt B (8 * k + j) := by
  have hbyte : (8 * k + j) / 8 = k + j / 8 := by omega
  have hbit : (8 * k + j) % 8 = j % 8 := by omega
  have hlt : j / 8 < m := by omega
  simp only [bitAt, hbyte, hbit, List.getD_eq_getElem?_getD, List.getElem?_take_of_lt hlt, List.getElem?_drop]

/-! ## One bit after a write, one bit of a reduced image -/

@[simp] theorem bitLen_bitsWrite (B : Bytes) (a n v : Nat) : bitLen (bitsWrite B a n v) = bitLen B :=
  bitLen_eq (bitsWrite_length B a n v)

@[simp] theorem bitLen_blobWrite (B : Bytes) (a L : Nat) (O : Bytes) : bitLen (blobWrite B a L O) = bitLen B :=
  bitLen_eq (blobWrite_length B a L O)

theorem bitAt_bitsWrite (a n v : Nat) {i : Nat} (hi : i < bitLen B) :
    bitAt (bitsWrite B a n v) i = if a ≤ i ∧ i < a + n then v.testBit (n - 1 - (i - a)) else bitAt B i :=
  bitAt_bytesOfBits _ _ _ hi

/-- Reducing an image's number to the range's width clears the pad bits and keeps the others (R60, R137). -/
theorem bitAt_reducedImage (hO : O.length = ceil8 L) {i : Nat} (hi : i < 8 * ceil8 L) :
    bitAt (beBytes (beVal O % 2 ^ L) (ceil8 L)) i = (decide (blobPad L ≤ i) && bitAt O i) := by
  have hpad := blobPad_add L
  have hlen : bitLen O = 8 * ceil8 L := by rw [bitLen, hO]
  have hbit := testBit_beVal O i (by omega)
  rw [hlen] at hbit
  rw [bitAt_beBytes _ _ _ hi, Nat.testBit_mod_two_pow, hbit]
  congr 1
  exact decide_eq_decide.2 (by omega)

theorem bitNat_eq_iff {i j : Nat} : bitNat A i = bitNat B j ↔ bitAt A i = bitAt B j := by
  rw [bitNat_eq_bitAt, bitNat_eq_bitAt]
  exact (Function.LeftInverse.injective Bool.ofNat_toNat).eq_iff

/-- The reduced image is the image itself exactly when the pad bits are 0. -/
theorem reducedImage_eq_iff (hO : O.length = ceil8 L) :
    beBytes (beVal O % 2 ^ L) (ceil8 L) = O ↔ ∀ i < blobPad L, bitNat O i = 0 := by
  have hpad := blobPad_add L
  simp only [bitNat_eq_bitAt, Bool.toNat_eq_zero]
  constructor
  · intro heq i hi
    have hbit := bitAt_reducedImage hO (show i < 8 * ceil8 L by omega)
    rw [heq] at hbit
    simpa [Nat.not_le.2 hi] using hbit
  · refine fun hclear => bytes_ext (by simp [hO]) fun i hi => ?_
    rw [bitAt_reducedImage hO (by simpa [bitLen] using hi)]
    by_cases hi : i < blobPad L
    · simp [hclear i hi]
    · simp [Nat.not_lt.1 hi]

/-! ## Ranges written -/

theorem isWritten_bitsWrite (v : Nat) (hb : a + n ≤ bitLen B) : isWritten (bitsWrite B a n v) B a n v :=
  ⟨sameOutside_bitsWrite B a n v, fun j hj => by
    rw [bitNat_eq_bitAt, bitAt_bitsWrite_in v j hb hj, Nat.toNat_testBit]⟩

theorem isImage_blobRead (B : Bytes) (a L : Nat) : isImage (blobRead B a L) B a L := by
  refine ⟨blobRead_length B a L, fun i hi => ?_, fun j hj => ?_⟩
  · rw [bitNat_eq_bitAt, bitAt_blobRead_pad B a L i hi, Bool.toNat_false]
  · rw [bitNat_eq_bitAt, bitNat_eq_bitAt, ← bitAt_blobRead_in B a L j hj, blobPad]

/-- Writing the same number to the same range again changes nothing. -/
theorem bitsWrite_idem (B : Bytes) (a n v : Nat) : bitsWrite (bitsWrite B a n v) a n v = bitsWrite B a n v := by
  refine bytes_ext (by simp) fun i hi => ?_
  simp only [bitLen_bitsWrite] at hi
  by_cases hin : a ≤ i ∧ i < a + n
  · rw [bitAt_bitsWrite a n v (by simpa using hi), bitAt_bitsWrite a n v hi, if_pos hin, if_pos hin]
  · exact bitAt_bitsWrite_out _ a n v i (by omega)

/-- Writing back the number a range holds changes nothing. -/
theorem bitsWrite_bitsRead (B : Bytes) (a n : Nat) : bitsWrite B a n (bitsRead B a n) = B := by
  refine bytes_ext (by simp) fun i hi => ?_
  rw [bitAt_bitsWrite a n _ (by simpa using hi)]
  split
  · rw [testBit_bitsRead B a n (i - a) (by omega), show a + (i - a) = i by omega]
  · rfl

/-- Writing back the image of a range changes nothing. -/
theorem blobWrite_blobRead (hb : a + L ≤ bitLen B) : blobWrite B a L (blobRead B a L) = B := by
  refine bytes_ext (by simp) fun i _ => ?_
  by_cases hi : a ≤ i ∧ i < a + L
  · obtain ⟨j, rfl⟩ := Nat.exists_eq_add_of_le hi.1
    have hj : j < L := by omega
    rw [bitAt_blobWrite_in _ j hb hj, bitAt_blobRead_in B a L j hj]
  · exact bitAt_blobWrite_out B a L _ i (by omega)

theorem bitsWrite_comm (B : Bytes) {a n a' n' : Nat} (v v' : Nat) (hd : a + n ≤ a' ∨ a' + n' ≤ a) :
    bitsWrite (bitsWrite B a n v) a' n' v' = bitsWrite (bitsWrite B a' n' v') a n v := by
  refine bytes_ext (by simp) fun i hi => ?_
  simp only [bitLen_bitsWrite] at hi
  rw [bitAt_bitsWrite _ _ _ (by simpa using hi), bitAt_bitsWrite _ _ _ hi,
    bitAt_bitsWrite _ _ _ (by simpa using hi), bitAt_bitsWrite _ _ _ hi]
  by_cases hfirst : a ≤ i ∧ i < a + n
  · rw [if_pos hfirst, if_neg (by omega), if_pos hfirst]
  · rw [if_neg hfirst, if_neg hfirst]

/-! ## The reads of the cursor -/

/-- RDBITS's read succeeds exactly on a count and a range that pass its checks (R130, R134). -/
theorem readBits_ok {v : Val} : readBits B a n = .ok v ↔
    (1 ≤ n ∧ n ≤ 128) ∧ a + n ≤ bitLen B ∧ v.toNat = bitsRead B a n := by
  unfold readBits Config.maxCount
  split
  · simp only [reduceCtorEq, false_iff]; omega
  · split
    · simp only [reduceCtorEq, false_iff]; omega
    · have hlt : bitsRead B a n < 2 ^ 128 :=
        Nat.lt_of_lt_of_le (bitsRead_lt B a n) (Nat.pow_le_pow_right (by omega) (by omega))
      have hval : (BitVec.ofNat 128 (bitsRead B a n)).toNat = bitsRead B a n := Nat.mod_eq_of_lt hlt
      rw [Except.ok.injEq, ← BitVec.toNat_inj, hval]
      constructor
      · exact fun h => ⟨by omega, by omega, h.symm⟩
      · exact fun ⟨_, _, h⟩ => h.symm

/-- RDBLOB's read succeeds exactly on a range in bounds (R132, R56). -/
theorem readBlob_ok : readBlob B a L = .ok O ↔ a + L ≤ bitLen B ∧ O = blobRead B a L := by
  unfold readBlob
  split
  · simp only [reduceCtorEq, false_iff]; omega
  · rw [Except.ok.injEq]
    constructor
    · rintro rfl; exact ⟨by omega, rfl⟩
    · rintro ⟨-, rfl⟩; rfl

theorem readBlob_outOfBounds (hb : bitLen B < a + L) : readBlob B a L = .error .outOfBounds := if_pos hb

/-- A read depends on the buffer's length and on the bits of its range alone (R52). -/
theorem readBits_congr (hl : bitLen A = bitLen B) (h : bitsRead A a n = bitsRead B a n) :
    readBits A a n = readBits B a n := by
  simp only [readBits, hl, h]

theorem readBlob_congr (hl : bitLen A = bitLen B) (h : bitsRead A a n = bitsRead B a n) :
    readBlob A a n = readBlob B a n := by
  simp only [readBlob, hl, blobRead_eq_beBytes, h]

/-! ## The writes of the cursor, as writes of a number -/

theorem writeBlob_badBlobLength (hO : O.length ≠ ceil8 L) : writeBlob B a L O = .error .badBlobLength := if_pos hO

theorem writeBlob_outOfBounds (hO : O.length = ceil8 L) (hb : bitLen B < a + L) :
    writeBlob B a L O = .error .outOfBounds := by
  rw [writeBlob, if_neg (not_not.2 hO), if_pos hb]

/-- The checks of a write that do not look at the buffer (R134). -/
def RangeWrite.operandsOk : RangeWrite → Prop
  | .bits _ n v => (1 ≤ n ∧ n ≤ 128) ∧ v.toNat < 2 ^ n
  | .blob _ L O => O.length = ceil8 L

/-- The number a write stores in its range (R57, R133). -/
def RangeWrite.number : RangeWrite → Nat
  | .bits _ _ v => v.toNat
  | .blob _ L O => trunc L (beVal O)

variable {w w1 w2 : RangeWrite}

/-- A write of either kind succeeds exactly when its operands and its range pass the checks, and then writes its
number. -/
theorem RangeWrite.on_ok : w.on B = .ok A ↔
    w.operandsOk ∧ w.first + w.size ≤ bitLen B ∧ A = bitsWrite B w.first w.size w.number := by
  cases w with
  | bits s n v =>
    exact writeBits_ok.trans ⟨fun ⟨hn, hb, hv, hA⟩ => ⟨⟨hn, hv⟩, hb, hA⟩,
      fun ⟨⟨hn, hv⟩, hb, hA⟩ => ⟨hn, hb, hv, hA⟩⟩
  | blob s L O =>
    refine writeBlob_ok.trans (and_congr_right fun hO => ?_)
    rw [blobWrite_eq_bitsWrite B s L hO]
    rfl

/-- A write that succeeded succeeds again on its own result and leaves it (R62). -/
theorem RangeWrite.on_idem (h : w.on B = .ok A) : w.on A = .ok A := by
  obtain ⟨hops, hb, rfl⟩ := on_ok.1 h
  exact on_ok.2 ⟨hops, by rwa [bitLen_bitsWrite], (bitsWrite_idem ..).symm⟩

/-- Two successful writes to disjoint ranges commute (R138). -/
theorem RangeWrite.on_comm {B1 B12 : Bytes} (hd : w1.first + w1.size ≤ w2.first ∨ w2.first + w2.size ≤ w1.first)
    (h1 : w1.on B = .ok B1) (h2 : w2.on B1 = .ok B12) : ∃ B2, w2.on B = .ok B2 ∧ w1.on B2 = .ok B12 := by
  obtain ⟨hops1, hb1, rfl⟩ := on_ok.1 h1
  obtain ⟨hops2, hb2, rfl⟩ := on_ok.1 h2
  rw [bitLen_bitsWrite] at hb2
  exact ⟨_, on_ok.2 ⟨hops2, hb2, rfl⟩,
    on_ok.2 ⟨hops1, by rwa [bitLen_bitsWrite], bitsWrite_comm B _ _ hd⟩⟩

theorem RangeWrite.on_bitLen (h : w.on B = .ok A) : bitLen A = bitLen B := by
  obtain ⟨-, -, rfl⟩ := on_ok.1 h
  exact bitLen_bitsWrite ..

/-- A write leaves the number of every range disjoint from its own (R57, R138). -/
theorem RangeWrite.on_bitsRead (hd : w.first + w.size ≤ a ∨ a + n ≤ w.first) (h : w.on B = .ok A) :
    bitsRead A a n = bitsRead B a n := by
  obtain ⟨-, -, rfl⟩ := on_ok.1 h
  exact bitsRead_congr fun i hlo hhi => bitAt_bitsWrite_out B _ _ _ i (by omega)

end Ranges

section Answers

variable {i : Instr} {s t : State}

/-! ## What a command answers -/

theorem answersOnly_answer (s : State) (r : Response) : AnswersOnly s (s.answer r) r := ⟨rfl, rfl, rfl, rfl, rfl⟩

theorem returnsBuffer_returnBuffer (s : State) (B : Bytes) : ReturnsBuffer s (s.returnBuffer B) B :=
  ⟨rfl, s.mem.read_write_same _ B, fun _ hk => s.mem.read_write_other B hk, rfl, rfl, rfl⟩

theorem failsWith_of_raise {e : EngineError} (h : exec i s = .next (s.raise e)) : failsWith i s e :=
  ⟨_, h, answersOnly_answer s e.response⟩

/-- A command that answered with success did not raise an error (R205). -/
theorem exec_success {r : Response} (h : exec i s = .next t) (hr : t.resp = some r) (hst : r.status = .success) :
    Success s i t := by
  obtain ⟨e, rfl⟩ | hok := exec_cases h
  · cases hr
    exact absurd hst e.status_ne_success
  · exact hok

theorem State.finish_of_ok {α : Type} {x : Except EngineError α} {done : α → State} {y : α} (h : x = .ok y) :
    s.finish x done = .next (done y) := h ▸ rfl

theorem State.finish_of_error {α : Type} {x : Except EngineError α} {done : α → State} {e : EngineError}
    (h : x = .error e) : s.finish x done = .next (s.raise e) := h ▸ rfl

theorem exec_rdbits_ok {v : Val} (h : readBits s.handed s.ports.start s.ports.len = .ok v) :
    exec .rdbits s = .next (s.answer { Response.ok with rval := some v }) := State.finish_of_ok h

theorem exec_rdblob_ok {O : Bytes} (h : readBlob s.handed s.ports.start s.ports.len = .ok O) :
    exec .rdblob s = .next (s.answer { Response.ok with rblob := some O }) := State.finish_of_ok h

theorem exec_rdblob_error {e : EngineError} (h : readBlob s.handed s.ports.start s.ports.len = .error e) :
    failsWith .rdblob s e :=
  failsWith_of_raise (State.finish_of_error h)

theorem exec_wrblob_ok {B : Bytes} (h : writeBlob s.handed s.ports.start s.ports.len s.ports.blob = .ok B) :
    exec .wrblob s = .next (s.returnBuffer B) := State.finish_of_ok h

theorem exec_wrblob_error {e : EngineError}
    (h : writeBlob s.handed s.ports.start s.ports.len s.ports.blob = .error e) : failsWith .wrblob s e :=
  failsWith_of_raise (State.finish_of_error h)

/-- The buffer a command returned is what the next command is handed under the same number (R63, R65; log 3). -/
theorem returnBuffer_handed (s : State) (B : Bytes) {q : Ports} (hq : q.buf = s.ports.buf) :
    State.handed { s.returnBuffer B with ports := q } = B := by
  rw [State.handed, State.returnBuffer_mem, hq, Memory.read_write_same]

end Answers

/-! ## The obligations -/

/-- Settles O30: the image is `blobRead`, whose bits and number the laws give. -/
theorem rdblobReturnsTheImage : Obligations.RdblobReturnsTheImage := by
  intro s
  refine ⟨fun hb => exec_rdblob_error (readBlob_outOfBounds hb), fun hb => ?_⟩
  refine ⟨_, _, exec_rdblob_ok (readBlob_ok.2 ⟨hb, rfl⟩), answersOnly_answer s _, isImage_blobRead _ _ _, ?_⟩
  rw [blobRead_eq_beBytes, bitsRead_eq_bitSum]
  rfl

/-- Settles O31: the write of the image is the write of its number reduced to the range's width. -/
theorem wrblobWritesTheRange : Obligations.WrblobWritesTheRange := by
  intro s
  refine ⟨fun hO => exec_wrblob_error (writeBlob_badBlobLength hO),
    fun hO hb => exec_wrblob_error (writeBlob_outOfBounds hO hb), fun hO hb => ?_⟩
  have hok := writeBlob_ok.2 ⟨hO, hb, rfl⟩
  refine ⟨_, _, exec_wrblob_ok hok, returnsBuffer_returnBuffer s _, sameOutside_writeBlob hok, fun j hj => ?_, ?_⟩
  · rw [bitNat_eq_bitAt, bitNat_eq_bitAt, bitAt_blobWrite_in _ j hb hj, blobPad]
  · rw [blobWrite_eq_bitsWrite _ _ _ hO]
    exact isWritten_bitsWrite _ hb

/-- Settles O32: the slice of the bytes has the bits of the range, and is the number of its bits. -/
theorem alignedReadIsBigEndian : Obligations.AlignedReadIsBigEndian := by
  intro B k m hkm
  have hlen : bitLen ((B.drop k).take m) = 8 * m := by simp only [bitLen, List.length_take, List.length_drop]; omega
  rw [beVal_eq_bitsRead, hlen]
  exact bitsValue_congr fun j hj => by rw [Nat.zero_add, bitAt_take_drop B k hj]

/-- Settles O33: the read is handed the buffer that the write returned. -/
theorem readAfterWrite : Obligations.ReadAfterWrite := by
  intro s t r q hr hst hbuf hstart hlen
  refine ⟨fun h => ?_, fun h => ?_⟩
  · cases exec_success h hr hst with
    | wrbits B hB =>
      obtain ⟨hn, hb, hv, rfl⟩ := writeBits_ok.1 hB
      refine ⟨_, exec_rdbits_ok (v := s.ports.val) ?_, rfl⟩
      rw [returnBuffer_handed s _ hbuf, readBits_ok]
      simp only [hstart, hlen, bitLen_bitsWrite]
      exact ⟨hn, hb, by rw [bitsRead_bitsWrite _ hb, Nat.mod_eq_of_lt hv]⟩
  · cases exec_success h hr hst with
    | wrblob B hB =>
      obtain ⟨hO, hb, rfl⟩ := writeBlob_ok.1 hB
      refine ⟨_, _, exec_rdblob_ok ?_, rfl, rfl, reducedImage_eq_iff hO⟩
      rw [returnBuffer_handed s _ hbuf, readBlob_ok]
      simp only [hstart, hlen, bitLen_blobWrite]
      exact ⟨hb, by rw [blobRead_eq_beBytes, bitsRead_blobWrite hO hb]⟩

/-- Settles O34: both kinds of write are writes of a number, and both kinds of read depend on the range's number. -/
theorem writeAfterReadAndDisjointRanges : Obligations.WriteAfterReadAndDisjointRanges := by
  refine ⟨fun B s n v h => ?_, fun B s L O h => ?_, fun _ _ _ _ _ hd => RangeWrite.on_comm hd,
    fun B B1 w s n hd h => ?_⟩
  · obtain ⟨hn, hb, hv⟩ := readBits_ok.1 h
    exact writeBits_ok.2 ⟨hn, hb, hv ▸ bitsRead_lt B s n, by rw [hv, bitsWrite_bitsRead]⟩
  · obtain ⟨hb, rfl⟩ := readBlob_ok.1 h
    exact writeBlob_ok.2 ⟨blobRead_length B s L, hb, (blobWrite_blobRead hb).symm⟩
  · have hlen := RangeWrite.on_bitLen h
    have hbits := RangeWrite.on_bitsRead hd h
    exact ⟨readBits_congr hlen hbits, readBlob_congr hlen hbits⟩

/-- Settles O35: digits joined, and digits as a sum. -/
theorem readsConcatenate : Obligations.ReadsConcatenate :=
  fun B s n1 n2 _ => ⟨bitsRead_add B s n1 n2, bitsRead_eq_bitSum B s (n1 + n2)⟩

end Sys2Proof.Machine
end

section
/-! PROOFS. Repeating a command (`20_memory.md` R62, `60_exceptions.md` R206): a command that leaves SS and the
buffers finds again what it found, and a write finds its own result. -/

namespace Sys2Proof.Machine

section Repeat

variable {i : Instr} {s t u : State}

/-- Two states that the HOST cannot tell apart by the last response, SS and the contents of the buffers. -/
def SameView (t u : State) : Prop := u.resp = t.resp ∧ u.ss = t.ss ∧ ∀ h, u.mem.read h = t.mem.read h

/-- A command that left SS and the buffers answers again as it did: no command reads the last response. -/
theorem exec_repeat_of_unchanged (h : exec i s = .next t) (hss : t.ss = s.ss) (hmem : t.mem = s.mem) :
    exec i { t with ports := s.ports } = .next t := by
  have hstate : { t with ports := s.ports } = { s with resp := t.resp } := by
    rw [hss, hmem, exec_pending h]
  rw [hstate, exec_resp_irrelevant, h]

/-- Returning a buffer a second time leaves what the first time left. -/
theorem returnBuffer_sameView (s : State) (B : Bytes) :
    SameView (s.returnBuffer B) (State.returnBuffer { s.returnBuffer B with ports := s.ports } B) := by
  refine ⟨rfl, rfl, fun k => ?_⟩
  by_cases hk : k = s.ports.buf
  · subst hk
    exact (Memory.read_write_same ..).trans (Memory.read_write_same ..).symm
  · exact Memory.read_write_other _ _ hk

/-- A write command whose checks give, on the buffer it returned, that buffer again, can be repeated. -/
theorem finish_returnBuffer_repeat {B : Bytes} {x : Except EngineError Bytes} (hx : x = .ok B)
    (h : State.finish { s.returnBuffer B with ports := s.ports } x
      (State.returnBuffer { s.returnBuffer B with ports := s.ports }) = .next u) : SameView (s.returnBuffer B) u := by
  cases h.symm.trans (State.finish_of_ok hx)
  exact returnBuffer_sameView s B

/-- FENC on the buffer it returned returns that buffer again (R160, R62). -/
theorem encodeAddressed_idem {strict : Bool} {ss : Option RegisterSchema} {A B : Bytes} {fidx : Nat} {x : Value}
    (h : encodeAddressed strict ss B fidx x = .ok A) : encodeAddressed strict ss A fidx x = .ok A := by
  unfold encodeAddressed at h ⊢
  split at h
  · cases h
  · obtain ⟨htakes, hb, rfl⟩ := encodeField_ok.1 h
    exact encodeField_ok.2 ⟨htakes, by rwa [bitLen_bitsWrite], (bitsWrite_idem ..).symm⟩

theorem exec_repeat (ht : exec i s = .next t) (hu : exec i { t with ports := s.ports } = .next u) : SameView t u := by
  have hsame : t.ss = s.ss → t.mem = s.mem → SameView t u := by
    intro hss hmem
    rw [exec_repeat_of_unchanged ht hss hmem] at hu
    cases hu
    exact ⟨rfl, rfl, fun _ => rfl⟩
  obtain ⟨e, rfl⟩ | hok := exec_cases ht
  · exact hsame rfl rfl
  · cases hok with
    | rdbits | rdblob | fdec | decode => exact hsame rfl rfl
    | build sch hsch =>
      cases hu.symm.trans (State.finish_of_ok hsch)
      exact ⟨rfl, rfl, fun _ => rfl⟩
    | wrbits B hB =>
      refine finish_returnBuffer_repeat ?_ hu
      rw [returnBuffer_handed s B rfl]
      exact RangeWrite.on_idem (w := .bits _ _ _) hB
    | wrblob B hB =>
      refine finish_returnBuffer_repeat ?_ hu
      rw [returnBuffer_handed s B rfl]
      exact RangeWrite.on_idem (w := .blob _ _ _) hB
    | fenc strict B hB =>
      refine finish_returnBuffer_repeat ?_ hu
      rw [returnBuffer_handed s B rfl]
      exact encodeAddressed_idem hB
    | encode strict B hB => exact finish_returnBuffer_repeat hB hu

end Repeat

/-- Settles O22, by what the command left: nothing but its response, the schema it built, or the buffer it
returned. -/
theorem repeatingChangesNothing : Obligations.RepeatingChangesNothing := fun _ _ _ _ => exec_repeat

end Sys2Proof.Machine
end

section
/-! PROOFS. What DECODE depends on (`20_memory.md` R59, `43_register_codec.md` R184): the bits of its fields, in
buffers that hold all of them. -/

namespace Sys2Proof.Machine

section Decode

variable {A B : Bytes}

theorem decodeField_inBounds {f : FieldDescriptor} (hb : f.endBit ≤ bitLen B) :
    decodeField f B = .ok (fieldValue f B) := if_neg (Nat.not_lt.2 hb)

/-- The field loop of DECODE depends on the buffer through its fields alone (R181). -/
theorem decodeFields_congr {fields : List FieldDescriptor} (h : ∀ f ∈ fields, decodeField f A = decodeField f B)
    (R : FieldValues) : decodeFields A fields R = decodeFields B fields R := by
  induction fields generalizing R with
  | nil => rfl
  | cons f rest ih =>
    obtain ⟨hf, hrest⟩ := List.forall_mem_cons.1 h
    simp only [decodeFields, hf]
    cases decodeField f B with
    | error e => rfl
    | ok x => exact ih hrest _

/-- A buffer of at least `ceil8(T)` bytes holds every field of a valid schema (R187). -/
theorem RegisterSchema.Valid.endBit_le_bitLen {sch : RegisterSchema} (hv : sch.Valid)
    (hB : ceil8 sch.totalBits ≤ B.length) {f : FieldDescriptor} (hf : f ∈ sch.fields) : f.endBit ≤ bitLen B := by
  have hend := hv.endBit_le hf
  have hbits := ceil8_bits sch.totalBits
  unfold bitLen
  omega

theorem decodeRegister_congr {sch : RegisterSchema} (hv : sch.Valid) (hA : ceil8 sch.totalBits ≤ A.length)
    (hB : ceil8 sch.totalBits ≤ B.length) (hbits : ∀ i < sch.totalBits, bitAt A i = bitAt B i) :
    decodeRegister sch A = decodeRegister sch B := by
  rw [decodeRegister, decodeRegister, if_neg (Nat.not_lt.2 hA), if_neg (Nat.not_lt.2 hB)]
  refine decodeFields_congr (fun f hf => ?_) []
  rw [decodeField_inBounds (hv.endBit_le_bitLen hA hf), decodeField_inBounds (hv.endBit_le_bitLen hB hf),
    fieldValue_congr fun i _ hi => hbits i (Nat.lt_of_lt_of_le hi (hv.endBit_le hf))]

/-- DECODE answers from SS and the buffer it is handed alone (R181). -/
theorem exec_decode_resp_congr {s s' t u : State} (h : decodeLoaded s'.ss s'.handed = decodeLoaded s.ss s.handed)
    (ht : exec .decode s = .next t) (hu : exec .decode s' = .next u) : u.resp = t.resp := by
  rw [exec, execDecode, h] at hu
  exact State.finish_related (fun t u => u.resp = t.resp) ht hu (fun _ => rfl) (fun _ => rfl)

end Decode

/-- Settles O47: the two buffers give one result of DECODE's checks. -/
theorem decodeIgnoresPadAndTrailer : Obligations.DecodeIgnoresPadAndTrailer := by
  intro s sch A hss hv B hA hB hbits t u ht hu
  refine exec_decode_resp_congr ?_ ht hu
  have hhanded : State.handed { s with mem := s.mem.write s.ports.buf A } = A := s.mem.read_write_same _ A
  rw [hhanded, hss]
  exact decodeRegister_congr hv hA hB fun i hi => bitNat_eq_iff.1 (hbits i hi)

end Sys2Proof.Machine
end

section
/-! PROOFS. The command byte (`30_encoding.md` R80 to R83): a byte is its three fields, the decoder reads the fields
that the encoder writes, and every other byte is refused. -/

namespace Sys2Proof.Machine

section CommandByte

variable {b : Byte} {i j : Instr}

/-! ## The fields of a byte -/

/-- RSV, S and OP are all of a byte (R80). -/
theorem rsv_strict_op_append (b : Byte) : rsvField b ++ BitVec.ofBool (strictField b) ++ opField b = b := by
  revert b; decide

theorem eq_encodeInstr_of_fields (hrsv : rsvField b = 0) (hstrict : strictField b = strictBit i)
    (hop : opField b = opCode i) : b = encodeInstr i := by
  rw [← rsv_strict_op_append b, hrsv, hstrict, hop]; rfl

theorem withoutStrict_eq_ok {s : Bool} : withoutStrict s j = .ok i ↔ s = false ∧ j = i := by
  cases s <;> simp [withoutStrict]

/-! ## Decoder and encoder -/

theorem decodeByte_encodeInstr (i : Instr) : decodeByte (encodeInstr i) = .ok i := by
  cases i with
  | build | rdbits | wrbits | rdblob | wrblob | fdec | decode => rfl
  | fenc strict | encode strict => cases strict <;> rfl

/-- A command the decoder names has the fields of the byte that names it (R80, R81, R82). -/
theorem fields_of_decodeByte (h : decodeByte b = .ok i) :
    rsvField b = 0 ∧ strictField b = strictBit i ∧ opField b = opCode i := by
  unfold decodeByte at h
  split at h
  · cases h
  · rename_i hrsv
    refine ⟨not_not.1 hrsv, ?_⟩
    split at h
    all_goals rename_i hop
    case h_6 | h_8 => cases h; exact ⟨rfl, BitVec.eq_of_toNat_eq hop⟩
    case h_10 => cases h
    all_goals
      obtain ⟨hstrict, rfl⟩ := withoutStrict_eq_ok.1 h
      exact ⟨hstrict, BitVec.eq_of_toNat_eq hop⟩

theorem decodeByte_eq_ok_iff : decodeByte b = .ok i ↔ b = encodeInstr i := by
  constructor
  · intro h
    obtain ⟨hrsv, hstrict, hop⟩ := fields_of_decodeByte h
    exact eq_encodeInstr_of_fields hrsv hstrict hop
  · rintro rfl
    exact decodeByte_encodeInstr i

/-! ## Legal and illegal bytes -/

/-- The command bytes that R83 lists. -/
def legalBytes : List Byte := [0x01, 0x02, 0x03, 0x04, 0x05, 0x06, 0x16, 0x07, 0x08, 0x18, 0x09]

theorem encodeInstr_mem_legalBytes (i : Instr) : encodeInstr i ∈ legalBytes := by
  cases i with
  | build | rdbits | wrbits | rdblob | wrblob | fdec | decode => decide
  | fenc strict | encode strict => cases strict <;> decide

theorem exists_eq_encodeInstr_of_mem (h : b ∈ legalBytes) : ∃ i, b = encodeInstr i := by
  simp only [legalBytes, List.mem_cons, List.not_mem_nil, or_false] at h
  obtain rfl | rfl | rfl | rfl | rfl | rfl | rfl | rfl | rfl | rfl | rfl := h
  exacts [⟨.build, rfl⟩, ⟨.rdbits, rfl⟩, ⟨.wrbits, rfl⟩, ⟨.rdblob, rfl⟩, ⟨.wrblob, rfl⟩, ⟨.fenc false, rfl⟩,
    ⟨.fenc true, rfl⟩, ⟨.fdec, rfl⟩, ⟨.encode false, rfl⟩, ⟨.encode true, rfl⟩, ⟨.decode, rfl⟩]

theorem decodes_iff_mem_legalBytes : (∃ i, decodeByte b = .ok i) ↔ b ∈ legalBytes := by
  simp only [decodeByte_eq_ok_iff]
  exact ⟨fun ⟨i, h⟩ => h ▸ encodeInstr_mem_legalBytes i, exists_eq_encodeInstr_of_mem⟩

/-- The three ways of being illegal, V1 to V3 of R83, on the byte's number. -/
theorem not_mem_legalBytes_iff : ∀ b : Byte, b ∉ legalBytes ↔
    b.toNat / 32 ≠ 0 ∨ b.toNat % 16 = 0 ∨ 10 ≤ b.toNat % 16 ∨
      b.toNat / 16 % 2 = 1 ∧ b.toNat % 16 ≠ 6 ∧ b.toNat % 16 ≠ 8 := by
  decide

theorem step_of_not_mem_legalBytes {s : State} {p : Ports} {rest : List HostEvent}
    (hp : s.pending = .command p :: rest) (hc : p.cmd ∉ legalBytes) :
    step s = .next ((s.present p rest).raise .illegalCommand) := by
  cases hd : decodeByte p.cmd with
  | error e => exact step_illegal hp hd
  | ok i => exact absurd (decodes_iff_mem_legalBytes.1 ⟨i, hd⟩) hc

end CommandByte

/-- Settles O1: each of the eleven bytes is the encoder's byte for its command. -/
theorem tableBytesDecode : Obligations.TableBytesDecode :=
  ⟨decodeByte_encodeInstr .build, decodeByte_encodeInstr .rdbits, decodeByte_encodeInstr .wrbits,
    decodeByte_encodeInstr .rdblob, decodeByte_encodeInstr .wrblob, decodeByte_encodeInstr (.fenc false),
    decodeByte_encodeInstr (.fenc true), decodeByte_encodeInstr .fdec, decodeByte_encodeInstr (.encode false),
    decodeByte_encodeInstr (.encode true), decodeByte_encodeInstr .decode⟩

/-- Settles O3: the decoder reads the fields that the encoder writes, and a byte has no others. -/
theorem commandByteReadsBack : Obligations.CommandByteReadsBack := fun _ _ => decodeByte_eq_ok_iff

/-- Settles O2: the legal bytes are those of the encoder, and a step on any other raises IllegalCommand. -/
theorem illegalBytesAreRefused : Obligations.IllegalBytesAreRefused :=
  ⟨fun _ => decodes_iff_mem_legalBytes,
    fun b => (not_congr decodes_iff_mem_legalBytes).trans (not_mem_legalBytes_iff b),
    fun _ _ _ hp hc => ⟨_, step_of_not_mem_legalBytes hp hc, rfl, rfl, rfl, rfl, rfl⟩⟩

end Sys2Proof.Machine
end

section
/-! PROOFS. The written form of a command (`30_encoding.md` R88): a line's operands are read back from the ports they
were put on. -/

namespace Sys2Proof.Machine

theorem disassembleSpec_assembleSpec (f : FieldName × Nat × ValueKind) :
    disassembleSpec (assembleSpec f) = some f := by
  rw [disassembleSpec, assembleSpec, kindOfCode_codeOfKind]; rfl

theorem mapM_disassembleSpec_assembleSpec (specs : List (FieldName × Nat × ValueKind)) :
    (specs.map assembleSpec).mapM disassembleSpec = some specs := by
  induction specs with
  | nil => rfl
  | cons f rest ih => simp [disassembleSpec_assembleSpec, ih]

theorem decodeByte_assemble_cmd (buf : Nat) (a : AsmLine) : decodeByte (a.assemble buf).cmd = .ok a.instr :=
  decodeByte_encodeInstr a.instr

theorem disassemble_assemble (buf : Nat) (a : AsmLine) : disassemble (a.assemble buf) = some a := by
  rw [disassemble, decodeByte_assemble_cmd]
  cases a with
  | build specs => exact congrArg (Option.map AsmLine.build) (mapM_disassembleSpec_assembleSpec specs)
  | rdbits | wrbits | rdblob | wrblob | fenc | fdec | encode | decode => rfl

/-- Settles O4: the byte is read back by the decoder, the operands from the ports that R84 lists for the command. -/
theorem writtenCommandReadsBack : Obligations.WrittenCommandReadsBack :=
  fun buf a => ⟨disassemble_assemble buf a, decodeByte_assemble_cmd buf a, rfl⟩

end Sys2Proof.Machine
end

section
/-! PROOFS. What a command reads of its ports (`30_encoding.md` R84, R89): its checks read the listed ones, and a state
it leaves holds none. -/

namespace Sys2Proof.Machine

section Ports

variable {s : State} {p q : Ports}

/-- The ports show in the result of a command's checks and in what its success leaves, not in an error. -/
theorem finish_ports_congr {α : Type} {x y : Except EngineError α} {done done' : α → State} (hxy : x = y)
    (hdone : ∀ a, done a = done' a) :
    State.finish { s with ports := p } x done = State.finish { s with ports := q } y done' := by
  subst hxy
  cases x with
  | error e => rfl
  | ok a => exact congrArg Host.Outcome.next (hdone a)

/-- Of the ports, a returned buffer depends on the number of the buffer handed over (R25; log 3, log 5). -/
theorem returnBuffer_ports_congr (hbuf : p.buf = q.buf) (B : Bytes) :
    State.returnBuffer { s with ports := p } B = State.returnBuffer { s with ports := q } B := by
  simp only [State.returnBuffer, State.answer, hbuf]

theorem handed_ports_congr (hbuf : p.buf = q.buf) :
    State.handed { s with ports := p } = State.handed { s with ports := q } := congrArg s.mem.read hbuf

theorem exec_ports_congr {i : Instr} (h : ∀ port ∈ portsRead i, samePort p q port)
    (hencode : ∀ strict, i = .encode strict → p.buf = q.buf) :
    exec i { s with ports := p } = exec i { s with ports := q } := by
  cases i with
  | build =>
    have hspecs : p.specs = q.specs := h _ (.head _)
    exact finish_ports_congr (congrArg buildSchema hspecs) fun _ => rfl
  | rdbits | rdblob =>
    obtain ⟨hbuf, hstart, hlen⟩ : p.buf = q.buf ∧ p.start = q.start ∧ p.len = q.len := by
      simpa [portsRead, samePort] using h
    exact finish_ports_congr (by rw [handed_ports_congr hbuf, hstart, hlen]) fun _ => rfl
  | wrbits =>
    obtain ⟨hbuf, hstart, hlen, hval⟩ : p.buf = q.buf ∧ p.start = q.start ∧ p.len = q.len ∧ p.val = q.val := by
      simpa [portsRead, samePort] using h
    exact finish_ports_congr (by rw [handed_ports_congr hbuf, hstart, hlen, hval]) (returnBuffer_ports_congr hbuf)
  | wrblob =>
    obtain ⟨hbuf, hstart, hlen, hblob⟩ : p.buf = q.buf ∧ p.start = q.start ∧ p.len = q.len ∧ p.blob = q.blob := by
      simpa [portsRead, samePort] using h
    exact finish_ports_congr (by rw [handed_ports_congr hbuf, hstart, hlen, hblob]) (returnBuffer_ports_congr hbuf)
  | fenc strict =>
    obtain ⟨hbuf, hfidx, hfval⟩ : p.buf = q.buf ∧ p.fidx = q.fidx ∧ p.fval = q.fval := by
      simpa [portsRead, samePort] using h
    exact finish_ports_congr (by rw [handed_ports_congr hbuf, hfidx, hfval]) (returnBuffer_ports_congr hbuf)
  | fdec =>
    obtain ⟨hbuf, hfidx⟩ : p.buf = q.buf ∧ p.fidx = q.fidx := by simpa [portsRead, samePort] using h
    exact finish_ports_congr (by rw [handed_ports_congr hbuf, hfidx]) fun _ => rfl
  | encode strict =>
    have hvals : p.vals = q.vals := h _ (.head _)
    exact finish_ports_congr (congrArg (encodeLoaded strict s.ss) hvals) (returnBuffer_ports_congr (hencode strict rfl))
  | decode =>
    have hbuf : p.buf = q.buf := h _ (.head _)
    exact finish_ports_congr (congrArg (decodeLoaded s.ss) (handed_ports_congr hbuf)) fun _ => rfl

end Ports

/-- Settles O16: each command reads the ports listed for it, and they leave with its response. -/
theorem unusedPortsHaveNoEffect : Obligations.UnusedPortsHaveNoEffect :=
  fun _ _ _ _ h hencode => exec_ports_congr h hencode

end Sys2Proof.Machine
end

section
/-! PROOFS. The status byte (`30_encoding.md` R87): a code names one member of STATUS, and its high nibble the class. -/

namespace Sys2Proof.Machine

section StatusByte

variable {st : Status}

/-- The members of STATUS, in the order of R201. -/
def allStatuses : List Status :=
  [.success, .emptySchema, .zeroWidthField, .nativeWidthTooSmall, .duplicateName, .outOfBounds, .valueTooWide,
    .valueExceedsWidth, .blobLengthMismatch, .missingField, .bufferTooShort, .illegalCommand, .noSchema,
    .badFieldIndex, .badCount, .badBlobLength, .kindMismatch, .badKind]

/-- The member of STATUS that a status byte reports. -/
def statusOfCode (c : Byte) : Option Status := allStatuses.find? fun st => st.code == c

theorem statusOfCode_code (st : Status) : statusOfCode st.code = some st := by cases st <;> rfl

theorem Status.code_injective : Function.Injective Status.code := fun a b h =>
  Option.some.inj ((statusOfCode_code a).symm.trans ((congrArg statusOfCode h).trans (statusOfCode_code b)))

theorem Status.errorClass_eq_none_iff : st.errorClass = none ↔ st = .success := by
  cases st <;> simp [Status.errorClass]

/-- The high nibble of an error's code is that of its class (R87). -/
theorem Status.code_div_sixteen {c : ErrorClass} (h : st.errorClass = some c) : st.code.toNat / 16 = c.nibble := by
  revert h; cases st <;> rintro ⟨⟩ <;> rfl

end StatusByte

/-- Settles O7: a status byte reads back to one member, and its high nibble is the nibble of the class. -/
theorem statusByteNibbles : Obligations.StatusByteNibbles :=
  ⟨fun _ => ⟨Status.code_eq_zero, fun h => h ▸ rfl⟩, Status.code_injective, fun _ => Status.errorClass_eq_none_iff,
    fun _ => ⟨Status.code_div_sixteen, Status.code_div_sixteen, Status.code_div_sixteen, Status.code_div_sixteen,
      Status.code_div_sixteen⟩⟩

end Sys2Proof.Machine
end

section
/-! PROOFS. The Schema Model (`40_schema_model.md` R110 to R115): which lists BUILD accepts, which fault it reports
first, and the layout it loads. -/

namespace Sys2Proof.Machine

section Build

variable {s : State} {specs pre post : List FieldSpec} {f : FieldSpec} {e : EngineError}

/-! ## The two checks on a kind code -/

/-- Codes from 5 on name no integer kind (R85). -/
theorem kindOfCode_of_five_le : ∀ c : BitVec 3, 5 ≤ c.toNat →
    kindOfCode c = if c.toNat = 5 then some .byteBlob else none := by decide

theorem hasBadKind_eq_false_iff : hasBadKind f = false ↔ f.kindCode.toNat < 6 := by
  unfold hasBadKind
  by_cases hcode : f.kindCode.toNat ≤ 4
  · obtain ⟨nw, hkind, -⟩ := kindOfCode_of_le_four hcode
    simp only [hkind, Option.isNone_some, true_iff]
    omega
  · rw [kindOfCode_of_five_le _ (by omega)]
    split
    · simp only [Option.isNone_some, true_iff]; omega
    · simp only [Option.isNone_none, reduceCtorEq, false_iff]; omega

theorem hasBadKind_eq_true_iff : hasBadKind f = true ↔ 6 ≤ f.kindCode.toNat := by
  rw [← Bool.not_eq_false, hasBadKind_eq_false_iff, Nat.not_lt]

/-- A field whose code passes check (0) gets the kind the code names (R85, R112). -/
theorem some_specKind (hcode : f.kindCode.toNat < 6) : some (specKind f) = kindOfCode f.kindCode := by
  have hkind := hasBadKind_eq_false_iff.2 hcode
  rw [hasBadKind, Option.isNone_eq_false_iff] at hkind
  obtain ⟨k, hk⟩ := Option.isSome_iff_exists.1 hkind
  rw [specKind, hk, Option.getD_some]

/-- Check (3) in the rules' own formula: a code `c` below 5 names the native type of `8 * 2^c` bits (R85, R111). -/
theorem tooWideForNative_iff :
    tooWideForNative f = true ↔ f.kindCode.toNat < 5 ∧ f.bitWidth > 8 * 2 ^ f.kindCode.toNat := by
  unfold tooWideForNative
  by_cases hcode : f.kindCode.toNat ≤ 4
  · obtain ⟨nw, hkind, hbits⟩ := kindOfCode_of_le_four hcode
    simp only [hkind, hbits, decide_eq_true_eq, Nat.lt_succ_of_le hcode, true_and]
  · rw [kindOfCode_of_five_le _ (by omega)]
    have hnot : ¬ f.kindCode.toNat < 5 := by omega
    by_cases hblob : f.kindCode.toNat = 5
    · simp [hblob]
    · simp [hblob, hnot]

theorem tooWideForNative_eq_false_iff :
    tooWideForNative f = false ↔ ¬ (f.kindCode.toNat < 5 ∧ f.bitWidth > 8 * 2 ^ f.kindCode.toNat) := by
  rw [← Bool.not_eq_true, tooWideForNative_iff]

/-! ## The lists that pass every check -/

theorem acceptableSpecs_iff : AcceptableSpecs specs ↔ schemaFault specs = none := by
  simp only [schemaFault_eq_none, hasBadKind_eq_false_iff, tooWideForNative_eq_false_iff]
  constructor
  · intro h
    exact ⟨h.kinds, h.nonempty, fun f hf => Nat.one_le_iff_ne_zero.2 (h.widths f hf),
      fun f hf hwide => Nat.not_lt.2 (h.native f hf hwide.1) hwide.2, h.names⟩
  · rintro ⟨hkinds, hnonempty, hwidths, hnative, hnames⟩
    exact ⟨hkinds, hnonempty, fun f hf => Nat.one_le_iff_ne_zero.1 (hwidths f hf),
      fun f hf hcode => Nat.not_lt.1 fun hwide => hnative f hf ⟨hcode, hwide⟩, hnames⟩

/-! ## The fault of a list that does not -/

/-- BUILD reports no error but its five (R203). -/
theorem schemaFault_status (h : schemaFault specs = some e) : e.status ∈ mayRaise .build := by
  unfold schemaFault at h
  repeat' split at h
  all_goals cases h
  all_goals simp [mayRaise, EngineError.status]

/-- A check looks for the first field that fails it. -/
theorem find?_first {p : FieldSpec → Bool} (hf : p f = true) (hpre : ∀ g ∈ pre, p g = false) :
    (pre ++ f :: post).find? p = some f :=
  List.find?_eq_some_iff_append.2 ⟨hf, pre, post, rfl, by simpa using hpre⟩

theorem find?_hasBadKind_eq_none (hkinds : ∀ g ∈ specs, g.kindCode.toNat < 6) : specs.find? hasBadKind = none :=
  List.find?_eq_none.2 fun g hg => by simp [hasBadKind_eq_false_iff.2 (hkinds g hg)]

theorem find?_zeroWidth_eq_none (hwidths : ∀ g ∈ specs, g.bitWidth ≠ 0) :
    specs.find? (fun g => g.bitWidth == 0) = none :=
  List.find?_eq_none.2 fun g hg => by simpa using hwidths g hg

theorem schemaFault_badKind (hf : 6 ≤ f.kindCode.toNat) (hpre : ∀ g ∈ pre, g.kindCode.toNat < 6) :
    schemaFault (pre ++ f :: post) = some (.badKind f.name) := by
  have hfirst := find?_first (post := post) (hasBadKind_eq_true_iff.2 hf)
    fun g hg => hasBadKind_eq_false_iff.2 (hpre g hg)
  simp only [schemaFault, hfirst]

theorem schemaFault_nil : schemaFault [] = some .emptySchema := rfl

theorem schemaFault_zeroWidth (hkinds : ∀ g ∈ pre ++ f :: post, g.kindCode.toNat < 6) (hf : f.bitWidth = 0)
    (hpre : ∀ g ∈ pre, g.bitWidth ≠ 0) : schemaFault (pre ++ f :: post) = some (.zeroWidthField f.name) := by
  have hfirst := find?_first (p := fun g => g.bitWidth == 0) (post := post) (by simpa using hf) (by simpa using hpre)
  simp only [schemaFault, find?_hasBadKind_eq_none hkinds, hfirst, List.append_ne_nil_of_right_ne_nil, ne_eq,
    reduceCtorEq, not_false_eq_true, if_neg]

/-- A list that passes check (0) to (2) has the fault that check (3) or (4) finds (R111). -/
theorem schemaFault_of_widths (hkinds : ∀ g ∈ specs, g.kindCode.toNat < 6) (hnonempty : specs ≠ [])
    (hwidths : ∀ g ∈ specs, g.bitWidth ≠ 0) :
    schemaFault specs = ((specs.find? tooWideForNative).map fun g => .nativeWidthTooSmall g.name).or
      ((firstRepeat [] (specs.map (·.name))).map .duplicateName) := by
  simp only [schemaFault, find?_hasBadKind_eq_none hkinds, if_neg hnonempty, find?_zeroWidth_eq_none hwidths]
  cases specs.find? tooWideForNative with
  | some g => rfl
  | none => cases firstRepeat [] (specs.map (·.name)) <;> rfl

theorem schemaFault_tooWide (hkinds : ∀ g ∈ pre ++ f :: post, g.kindCode.toNat < 6)
    (hwidths : ∀ g ∈ pre ++ f :: post, g.bitWidth ≠ 0) (hf : tooWideForNative f = true)
    (hpre : ∀ g ∈ pre, tooWideForNative g = false) :
    schemaFault (pre ++ f :: post) = some (.nativeWidthTooSmall f.name) := by
  rw [schemaFault_of_widths hkinds (by simp) hwidths, find?_first hf hpre]
  rfl

theorem schemaFault_duplicate (hkinds : ∀ g ∈ pre ++ f :: post, g.kindCode.toNat < 6)
    (hwidths : ∀ g ∈ pre ++ f :: post, g.bitWidth ≠ 0) (hnative : ∀ g ∈ pre ++ f :: post, tooWideForNative g = false)
    (hf : f.name ∈ pre.map (·.name)) (hpre : (pre.map (·.name)).Nodup) :
    schemaFault (pre ++ f :: post) = some (.duplicateName f.name) := by
  have hnone : (pre ++ f :: post).find? tooWideForNative = none :=
    List.find?_eq_none.2 fun g hg => by simp [hnative g hg]
  have hrepeat : firstRepeat [] ((pre ++ f :: post).map (·.name)) = some f.name := by
    rw [List.map_append, List.map_cons]
    exact firstRepeat_split [] _ f.name _ (by simp) hpre (.inr hf)
  rw [schemaFault_of_widths hkinds (by simp) hwidths, hnone, hrepeat]
  rfl

/-! ## What BUILD answers -/

theorem exec_build_fault (h : schemaFault s.ports.specs = some e) : failsWith .build s e :=
  failsWith_of_raise (State.finish_of_error (by simp only [buildSchema, h]))

theorem exec_build_ok (h : schemaFault s.ports.specs = none) :
    exec .build s = .next
      (s.loadSchema ⟨layOut 0 s.ports.specs, (s.ports.specs.map (·.bitWidth)).sum⟩) :=
  State.finish_of_ok (by simp only [buildSchema, h])

/-! ## The layout -/

theorem layOut_length (off : Nat) (specs : List FieldSpec) : (layOut off specs).length = specs.length := by
  simpa using congrArg List.length (layOut_names off specs)

/-- Field `k` of the layout is field spec `k`, placed after the widths before it (R112, R113). -/
theorem layOut_getElem? {off k : Nat} (h : specs[k]? = some f) :
    (layOut off specs)[k]? =
      some ⟨f.name, f.bitWidth, off + ((specs.take k).map (·.bitWidth)).sum, specKind f⟩ := by
  induction specs generalizing off k with
  | nil => simp at h
  | cons g rest ih =>
    cases k with
    | zero =>
      obtain rfl : g = f := by simpa using h
      rfl
    | succ k => simpa [layOut, Nat.add_assoc] using ih (off := off + g.bitWidth) (k := k) (by simpa using h)

end Build

section Layout

variable {fields : List FieldDescriptor} {f g : FieldDescriptor}

/-- The last field ends where the layout ends (R113). -/
theorem prefixSums_getLast? {off : Nat} (h : prefixSums off fields) (hf : fields.getLast? = some f) :
    f.endBit = off + widthSum fields := by
  obtain ⟨before, rfl⟩ := List.getLast?_eq_some_iff.1 hf
  have hoff := prefixSums_offset h (i := before.length) (f := f) (by simp)
  simp only [FieldDescriptor.endBit, hoff, List.take_left, widthSum, List.map_append, List.sum_append, List.map_cons,
    List.map_nil, List.sum_singleton]
  omega

/-- An earlier field of a valid schema ends at or before a later one begins (R113). -/
theorem RegisterSchema.Valid.endBit_le_bitOffset {sch : RegisterSchema} (hv : sch.Valid) {i j : Nat} (hij : i < j)
    (hf : sch.fields[i]? = some f) (hg : sch.fields[j]? = some g) : f.endBit ≤ g.bitOffset := by
  obtain ⟨hi, rfl⟩ := List.getElem?_eq_some_iff.1 hf
  obtain ⟨hj, rfl⟩ := List.getElem?_eq_some_iff.1 hg
  exact List.pairwise_iff_getElem.1 (prefixSums_disjoint hv.offsets) i j hi hj hij

end Layout

/-! ## The obligations -/

/-- Settles O25: BUILD loads `layOut` of a list without a fault, and raises the fault of any other. -/
theorem buildLoadsTheSchema : Obligations.BuildLoadsTheSchema := by
  intro s
  rw [acceptableSpecs_iff]
  constructor
  · intro hnone
    have hkinds := (acceptableSpecs_iff.2 hnone).kinds
    refine ⟨_, _, exec_build_ok hnone, rfl, layOut_length 0 _, fun k spec hspec => ?_, rfl, rfl, rfl, rfl, rfl⟩
    exact ⟨_, layOut_getElem? hspec, rfl, rfl, Nat.zero_add _, some_specKind (hkinds _ (List.mem_of_getElem? hspec))⟩
  · intro hsome
    obtain ⟨e, he⟩ := Option.ne_none_iff_exists'.1 hsome
    exact ⟨e, schemaFault_status he, exec_build_fault he⟩

/-- Settles O26: BUILD's schema is valid, and each of its fields begins where the one before it ends. -/
theorem layoutInvariant : Obligations.LayoutInvariant := by
  intro specs sch h
  have hv := buildSchema_valid h
  refine ⟨fun i f hf => ?_, fun f hf => ?_, fun f hf => ?_, fun i j f g hij hf hg => ?_⟩
  · simpa [widthSum] using prefixSums_offset hv.offsets hf
  · simpa [hv.total, FieldDescriptor.endBit] using prefixSums_getLast? hv.offsets hf
  · rw [List.head?_eq_getElem?] at hf
    simpa using prefixSums_offset hv.offsets hf
  · have hend := hv.endBit_le_bitOffset hij hf hg
    obtain ⟨hwidth, -⟩ := hv.widths f (List.mem_of_getElem? hf)
    unfold FieldDescriptor.endBit at hend
    omega

/-- Settles O27: the fault of `schemaFault`, check by check. -/
theorem buildReportsTheFirstFault : Obligations.BuildReportsTheFirstFault := by
  intro s pre post f
  dsimp only
  refine ⟨fun hs hf hpre => ?_, fun hs => ?_, fun hkinds hs hf hpre => ?_, fun hkinds hwidths hs hf hpre => ?_,
    fun hkinds hwidths hnative hs hf hpre => ?_⟩
  · exact exec_build_fault (hs ▸ schemaFault_badKind hf hpre)
  · exact exec_build_fault (hs ▸ schemaFault_nil)
  · rw [hs] at hkinds
    exact exec_build_fault (hs ▸ schemaFault_zeroWidth hkinds hf hpre)
  · rw [hs] at hkinds hwidths
    exact exec_build_fault (hs ▸ schemaFault_tooWide hkinds hwidths (tooWideForNative_iff.2 hf)
      fun g hg => tooWideForNative_eq_false_iff.2 (hpre g hg))
  · rw [hs] at hkinds hwidths hnative
    exact exec_build_fault (hs ▸ schemaFault_duplicate hkinds hwidths
      (fun g hg => tooWideForNative_eq_false_iff.2 (hnative g hg)) hf hpre)

end Sys2Proof.Machine
end

section
/-! PROOFS. The buffer ENCODE returns (`43_register_codec.md` R185, R186): its length, its fields and its pad bits, and
the whole as one number. -/

namespace Sys2Proof.Machine

section EncodedBuffer

variable {B : Bytes} {strict : Bool} {sch : RegisterSchema} {vals : FieldValues}

theorem bitsRead_eq_zero {a n : Nat} (h : ∀ i, a ≤ i → i < a + n → bitAt B i = false) : bitsRead B a n = 0 := by
  rw [bitsRead, bitsValue_eq_sum]
  refine Finset.sum_eq_zero fun j hj => ?_
  have hj := Finset.mem_range.1 hj
  rw [h (a + j) (by omega) (by omega), Bool.toNat_false, Nat.zero_mul]

/-- The bits of a layout, as one number, are the numbers of its fields at their places (R139, R186). -/
theorem bitsRead_of_prefixSums (B : Bytes) {off T : Nat} {fields : List FieldDescriptor} (h : prefixSums off fields)
    (hT : off + widthSum fields = T) : bitsRead B off (widthSum fields) =
      (fields.map fun f => bitsRead B f.bitOffset f.bitWidth * 2 ^ (T - f.bitOffset - f.bitWidth)).sum := by
  induction fields generalizing off with
  | nil => rfl
  | cons f rest ih =>
    obtain ⟨rfl, hrest⟩ := h
    rw [widthSum_cons] at hT ⊢
    have hplace : T - f.bitOffset - f.bitWidth = widthSum rest := by omega
    rw [List.map_cons, List.sum_cons, bitsRead_add, ih hrest (by omega), hplace]

/-- What ENCODE under a valid schema returns: `ceil8(T)` bytes, every field the stored number of its name's value, and
0 in every bit from `T` on (R180, R185, R186). -/
theorem encodeRegister_ok (hv : sch.Valid) (h : encodeRegister strict sch vals = .ok B) :
    B.length = ceil8 sch.totalBits ∧
    (∀ f ∈ sch.fields, ∃ x, valueOf vals f.name = some x ∧ f.takes strict x ∧
      bitsRead B f.bitOffset f.bitWidth = storedNat f.bitWidth x) ∧
    ∀ i, sch.totalBits ≤ i → bitAt B i = false := by
  obtain ⟨hlength, hother, hfields⟩ := encodeFields_ok (prefixSums_disjoint hv.offsets) h
  refine ⟨by simpa using hlength, fun f hf => ?_, fun i hi => ?_⟩
  · obtain ⟨x, hx, htakes, -, hstored⟩ := hfields f hf
    exact ⟨x, hx, htakes, hstored⟩
  · rw [hother i fun f hf => .inr (Nat.le_trans (hv.endBit_le hf) hi), bitAt_zeros]

/-- A buffer of `ceil8(T)` bytes is the number of its first `T` bits followed by its pad bits (R53, R139). -/
theorem beVal_eq_bitsRead_pad {T : Nat} (hlength : B.length = ceil8 T) :
    beVal B = bitsRead B 0 T * 2 ^ (8 * ceil8 T - T) + bitsRead B T (8 * ceil8 T - T) := by
  have hsplit : bitLen B = T + (8 * ceil8 T - T) := by
    rw [bitLen, hlength, Nat.add_sub_of_le (ceil8_bits T)]
  rw [beVal_eq_bitsRead, hsplit, bitsRead_add, Nat.zero_add]

/-- The buffer in the response of an ENCODE is the one its field loop made (R180). -/
theorem encodeLoaded_of_resp {s t : State} (h : exec (.encode strict) s = .next t)
    (hresp : t.resp = some { status := .success, buf := some B }) : encodeLoaded strict s.ss s.ports.vals = .ok B := by
  cases exec_success h hresp rfl with
  | encode _ B' hB' =>
    cases hresp
    exact hB'

end EncodedBuffer

/-- Settles O44: the number of the buffer is the number of its layout above the pad bits, which are 0. -/
theorem encodedBufferAsANumber : Obligations.EncodedBufferAsANumber := by
  intro s t sch strict B hss hv h hresp
  have hB : encodeRegister strict sch s.ports.vals = .ok B := by
    simpa only [hss, encodeLoaded, loadedSchema] using encodeLoaded_of_resp h hresp
  obtain ⟨hlength, hfields, hpast⟩ := encodeRegister_ok hv hB
  have hpad : bitsRead B sch.totalBits (8 * ceil8 sch.totalBits - sch.totalBits) = 0 :=
    bitsRead_eq_zero fun i hi _ => hpast i hi
  refine ⟨hlength, fun f hf => ?_, hpad, ?_⟩
  · obtain ⟨x, hx, -, hstored⟩ := hfields f hf
    exact ⟨x, hx, hstored⟩
  · rw [beVal_eq_bitsRead_pad hlength, hpad, Nat.add_zero, hv.total,
      bitsRead_of_prefixSums B hv.offsets (Nat.zero_add _)]
    congr 2
    refine List.map_congr_left fun f hf => ?_
    obtain ⟨x, hx, -, hstored⟩ := hfields f hf
    simp only [hstored, hx, Option.getD_some]

end Sys2Proof.Machine
end

section
/-! PROOFS. The integer commands of the Bit Cursor check by check (`41_bit_cursor.md` R130, R131, R134), the encode
path of an integer field as a write of the cursor (`42_field_codec.md` R166), and a field read back after FENC, with
the fields beside it (R168). -/

namespace Sys2Proof.Machine

section Cursor

variable {s : State} {B : Bytes} {a n : Nat} {v : Val} {e : EngineError}

/-! ## RDBITS, check by check -/

theorem readBits_badCount (hn : n < 1 ∨ 128 < n) : readBits B a n = .error .badCount := if_pos hn

theorem readBits_outOfBounds (hn : 1 ≤ n ∧ n ≤ 128) (hb : bitLen B < a + n) :
    readBits B a n = .error .outOfBounds := by
  rw [readBits, Config.maxCount, if_neg (by omega), if_pos hb]

theorem readBits_succeeds (hn : 1 ≤ n ∧ n ≤ 128) (hb : a + n ≤ bitLen B) : ∃ v, readBits B a n = .ok v :=
  ⟨_, by rw [readBits, Config.maxCount, if_neg (by omega), if_neg (Nat.not_lt.2 hb)]⟩

theorem exec_rdbits_error (h : readBits s.handed s.ports.start s.ports.len = .error e) : failsWith .rdbits s e :=
  failsWith_of_raise (State.finish_of_error h)

/-! ## WRBITS, check by check -/

theorem writeBits_badCount (hn : n < 1 ∨ 128 < n) : writeBits B a n v = .error .badCount := if_pos hn

theorem writeBits_outOfBounds (hn : 1 ≤ n ∧ n ≤ 128) (hb : bitLen B < a + n) :
    writeBits B a n v = .error .outOfBounds := by
  rw [writeBits, Config.maxCount, if_neg (by omega), if_pos hb]

theorem writeBits_valueTooWide (hn : 1 ≤ n ∧ n ≤ 128) (hb : a + n ≤ bitLen B) (hv : 2 ^ n ≤ v.toNat) :
    writeBits B a n v = .error .valueTooWide := by
  rw [writeBits, Config.maxCount, if_neg (by omega), if_neg (Nat.not_lt.2 hb), if_pos hv]

/-- With a legal count and a value that fits it, only the bounds check is left (R134). -/
theorem writeBits_of_fits (hn : 1 ≤ n ∧ n ≤ 128) (hv : v.toNat < 2 ^ n) :
    writeBits B a n v = if bitLen B < a + n then .error .outOfBounds else .ok (bitsWrite B a n v.toNat) := by
  rw [writeBits, Config.maxCount, if_neg (by omega), if_neg (Nat.not_le.2 hv)]

theorem exec_wrbits_ok {A : Bytes} (h : writeBits s.handed s.ports.start s.ports.len s.ports.val = .ok A) :
    exec .wrbits s = .next (s.returnBuffer A) := State.finish_of_ok h

theorem exec_wrbits_error (h : writeBits s.handed s.ports.start s.ports.len s.ports.val = .error e) :
    failsWith .wrbits s e :=
  failsWith_of_raise (State.finish_of_error h)

end Cursor

section Field

variable {s t : State} {sch : RegisterSchema} {f g : FieldDescriptor} {A B : Bytes} {x y : Value} {strict : Bool}
  {k : Nat}

/-! ## The codec of one field -/

/-- The non-strict encode path of an integer has the bounds check alone (R160, R163). -/
theorem encodeField_int {nw : NativeWidth} (hkind : f.valueKind = .unsignedInteger nw) (v : Val) :
    encodeField false f B (.int v) = if bitLen B < f.bitOffset + f.bitWidth then .error .outOfBounds
      else .ok (bitsWrite B f.bitOffset f.bitWidth (v.toNat % 2 ^ f.bitWidth)) := by
  simp [encodeField, hkind, trunc]

theorem decodeField_ok : decodeField f B = .ok y ↔ f.endBit ≤ bitLen B ∧ y = fieldValue f B := by
  by_cases hb : f.endBit ≤ bitLen B
  · simp [decodeField_inBounds hb, hb, eq_comm]
  · have herror : decodeField f B = .error .outOfBounds := if_pos (Nat.not_le.1 hb)
    simp [herror, hb]

theorem addressedField_ok : addressedField (some sch) k = .ok f ↔ sch.fields[k]? = some f := by
  cases h : sch.fields[k]? <;> simp [addressedField, h]

/-- FDEC succeeds exactly on the index of a field that lies in the buffer (R161, R162). -/
theorem decodeAddressed_ok : decodeAddressed (some sch) B k = .ok y ↔
    ∃ f, sch.fields[k]? = some f ∧ f.endBit ≤ bitLen B ∧ y = fieldValue f B := by
  simp only [← addressedField_ok, ← decodeField_ok]
  cases h : addressedField (some sch) k <;> simp [decodeAddressed, h]

/-- An integer that fits is its own reduction, and so is an image whose pad bits are 0 (R168). -/
theorem reducedValue_of_keeps (h : f.keeps x) : reducedValue f.bitWidth x = x := by
  cases x with
  | int v =>
    obtain ⟨-, hv⟩ := h
    rw [reducedValue, Nat.mod_eq_of_lt hv, BitVec.ofNat_toNat, BitVec.setWidth_eq]
  | blob O =>
    obtain ⟨-, hO, hpad⟩ := h
    rw [reducedValue, (reducedImage_eq_iff hO).2 hpad]

/-- A field reads as the value written to it, reduced to the field (R161, R167). -/
theorem fieldValue_written (htakes : f.takes strict x) (hb : f.endBit ≤ bitLen B) :
    fieldValue f (bitsWrite B f.bitOffset f.bitWidth (storedNat f.bitWidth x)) = reducedValue f.bitWidth x :=
  fieldValue_of_stored htakes (by rw [bitsRead_bitsWrite _ hb, Nat.mod_eq_of_lt (storedNat_lt _ _)])

/-- A write to the range of another field leaves a field's value (R138). -/
theorem fieldValue_bitsWrite_other (hd : f.endBit ≤ g.bitOffset ∨ g.endBit ≤ f.bitOffset) (v : Nat) :
    fieldValue g (bitsWrite B f.bitOffset f.bitWidth v) = fieldValue g B :=
  fieldValue_congr fun i hlo hhi => bitAt_bitsWrite_out B _ _ v i (by
    simp only [FieldDescriptor.endBit] at hd hhi; omega)

/-- Two fields of a valid schema at different indices share no bit (R113). -/
theorem RegisterSchema.Valid.disjoint (hv : sch.Valid) {i j : Nat} (hij : i ≠ j) (hf : sch.fields[i]? = some f)
    (hg : sch.fields[j]? = some g) : f.endBit ≤ g.bitOffset ∨ g.endBit ≤ f.bitOffset :=
  (Nat.lt_or_gt_of_ne hij).imp (fun h => hv.endBit_le_bitOffset h hf hg) (fun h => hv.endBit_le_bitOffset h hg hf)

/-! ## FENC and FDEC -/

theorem exec_fdec_ok (h : decodeAddressed s.ss s.handed s.ports.fidx = .ok y) :
    exec .fdec s = .next (s.answer { Response.ok with rfval := some y }) := State.finish_of_ok h

/-- The value in the response of an FDEC is the one its codec read (R161). -/
theorem decodeAddressed_of_resp (h : exec .fdec s = .next t)
    (hresp : t.resp = some { status := .success, rfval := some y }) :
    decodeAddressed s.ss s.handed s.ports.fidx = .ok y := by
  cases exec_success h hresp rfl with
  | fdec z hz =>
    cases hresp
    exact hz

/-- A successful FENC returned the buffer with the value's stored number in the range of the addressed field (R160). -/
theorem exec_fenc_success {r : Response} (hss : s.ss = some sch) (hf : sch.fields[s.ports.fidx]? = some f)
    (h : exec (.fenc strict) s = .next t) (hresp : t.resp = some r) (hst : r.status = .success) :
    f.takes strict s.ports.fval ∧ f.endBit ≤ bitLen s.handed ∧
      t = s.returnBuffer (bitsWrite s.handed f.bitOffset f.bitWidth (storedNat f.bitWidth s.ports.fval)) := by
  cases exec_success h hresp hst with
  | fenc _ A hA =>
    rw [hss, encodeAddressed_of_addressed (addressedField_ok.2 hf)] at hA
    obtain ⟨htakes, hb, rfl⟩ := encodeField_ok.1 hA
    exact ⟨htakes, hb, rfl⟩

/-- FDEC after a command that returned the buffer `A` reads field `g` of `A` (R63, R65; log 3). -/
theorem exec_fdec_returnBuffer (hss : s.ss = some sch) {q : Ports} (hq : q.buf = s.ports.buf)
    (hg : sch.fields[q.fidx]? = some g) (hb : g.endBit ≤ bitLen A) :
    ∃ u, exec .fdec { s.returnBuffer A with ports := q } = .next u ∧
      u.resp = some { status := .success, rfval := some (fieldValue g A) } := by
  refine ⟨_, exec_fdec_ok ?_, rfl⟩
  rw [returnBuffer_handed s A hq, State.returnBuffer_ss, hss]
  exact decodeAddressed_ok.2 ⟨g, hg, hb, rfl⟩

end Field

/-! ## The obligations -/

/-- Settles O28: the two checks, then the number of the range as the sum of its bits. -/
theorem rdbitsReturnsTheBits : Obligations.RdbitsReturnsTheBits := by
  intro s
  refine ⟨fun hn => exec_rdbits_error (readBits_badCount hn),
    fun hlo hhi hb => exec_rdbits_error (readBits_outOfBounds ⟨hlo, hhi⟩ hb), fun hlo hhi hb => ?_⟩
  obtain ⟨v, hok⟩ := readBits_succeeds ⟨hlo, hhi⟩ hb
  obtain ⟨-, -, hv⟩ := readBits_ok.1 hok
  exact ⟨_, v, exec_rdbits_ok hok, answersOnly_answer s _, hv.trans (bitsRead_eq_bitSum ..), hv ▸ bitsRead_lt ..⟩

/-- Settles O29: the three checks, then the range written. -/
theorem wrbitsWritesTheRange : Obligations.WrbitsWritesTheRange := by
  intro s
  refine ⟨fun hn => exec_wrbits_error (writeBits_badCount hn),
    fun hlo hhi hb => exec_wrbits_error (writeBits_outOfBounds ⟨hlo, hhi⟩ hb),
    fun hlo hhi hb hv => exec_wrbits_error (writeBits_valueTooWide ⟨hlo, hhi⟩ hb hv), fun hlo hhi hb hv => ?_⟩
  exact ⟨_, _, exec_wrbits_ok (writeBits_ok.2 ⟨⟨hlo, hhi⟩, hb, hv, rfl⟩), returnsBuffer_returnBuffer s _,
    isWritten_bitsWrite _ hb⟩

/-- Settles O39: the truncated value fits the field's width, so both paths are left with the bounds check alone. -/
theorem fencIsWrbitsOfTheTruncatedValue : Obligations.FencIsWrbitsOfTheTruncatedValue := by
  intro sch f nw B v hv hf hkind t
  have ht : t.toNat = v.toNat % 2 ^ f.bitWidth := Nat.mod_eq_of_lt (Nat.lt_of_le_of_lt (Nat.mod_le _ _) v.isLt)
  have hfits : t.toNat < 2 ^ f.bitWidth := ht ▸ Nat.mod_lt _ (Nat.two_pow_pos _)
  have hwrite := writeBits_of_fits (B := B) (a := f.bitOffset) (hv.intWidth hf hkind) hfits
  refine ⟨ht, ?_, ?_, ?_⟩
  · rw [hwrite, encodeField_int hkind, ht]
  · rw [hwrite]; split <;> simp
  · rw [hwrite]; split <;> simp

/-- Settles O41: FDEC is handed the buffer that FENC returned, in which the addressed field holds the stored number
and the fields beside it their own bits. -/
theorem fieldRoundTrip : Obligations.FieldRoundTrip := by
  intro s t r sch f strict hss hv hf h hresp hst
  obtain ⟨htakes, hb, rfl⟩ := exec_fenc_success hss hf h hresp hst
  refine ⟨fun q hbuf hidx => ?_, fun q u y hbuf hidx hu hy => ?_⟩
  · obtain ⟨u, hu, hy⟩ := exec_fdec_returnBuffer hss hbuf (hidx ▸ hf) ((bitLen_bitsWrite ..).symm ▸ hb)
    rw [fieldValue_written htakes hb] at hy
    exact ⟨u, _, hu, hy, rfl, reducedValue_of_keeps⟩
  · have hread : decodeAddressed (some sch) s.handed q.fidx = .ok y := by
      simpa only [State.handed, hbuf, hss] using decodeAddressed_of_resp hu hy
    obtain ⟨g, hg, hbg, rfl⟩ := decodeAddressed_ok.1 hread
    rw [← fieldValue_bitsWrite_other (hv.disjoint hidx.symm hf hg)]
    exact exec_fdec_returnBuffer hss hbuf hg ((bitLen_bitsWrite ..).symm ▸ hbg)

end Sys2Proof.Machine
end

section
/-! PROOFS. FENC and FDEC check by check (`42_field_codec.md` R160 to R165): what the codec of one field answers, what
the two commands answer on the field they address, and the checks that come before it (R162, R182). -/

namespace Sys2Proof.Machine

section FieldChecks

variable {s : State} {sch : RegisterSchema} {f : FieldDescriptor} {A B : Bytes} {x : Value} {strict : Bool}
  {ss : Option RegisterSchema} {i : Instr} {k : Nat} {e : EngineError}

/-! ## The encode path, check by check -/

theorem encodeField_kindMismatch (h : f.wrongKind x) : encodeField strict f B x = .error (.kindMismatch f.name) := by
  cases x with
  | int v =>
    have hkind : f.valueKind = .byteBlob := h
    simp only [encodeField, hkind]
  | blob O =>
    obtain ⟨nw, hkind⟩ := h
    simp only [encodeField, hkind]

theorem encodeField_valueExceedsWidth {nw : NativeWidth} {v : Val} (hkind : f.valueKind = .unsignedInteger nw)
    (hv : 2 ^ f.bitWidth ≤ v.toNat) : encodeField true f B (.int v) = .error (.valueExceedsWidth f.name) := by
  simp only [encodeField, hkind]
  exact if_pos ⟨trivial, hv⟩

theorem encodeField_blobLengthMismatch {O : Bytes} (hkind : f.valueKind = .byteBlob)
    (hO : O.length ≠ ceil8 f.bitWidth) : encodeField strict f B (.blob O) = .error (.blobLengthMismatch f.name) := by
  simp only [encodeField, hkind]
  exact if_pos hO

/-- The bounds check comes last, so a value the field takes meets it alone (R160). -/
theorem encodeField_outOfBounds (htakes : f.takes strict x) (hb : bitLen B < f.endBit) :
    encodeField strict f B x = .error .outOfBounds := by
  cases x with
  | int v =>
    obtain ⟨⟨nw, hkind⟩, hfits⟩ := htakes
    simp only [encodeField, hkind]
    rw [if_neg fun h => Nat.not_le.2 (hfits h.1) h.2]
    exact if_pos hb
  | blob O =>
    obtain ⟨hkind, hO⟩ := htakes
    simp only [encodeField, hkind]
    rw [if_neg (not_not.2 hO)]
    exact if_pos hb

/-! ## The decode path: the bounds check, and the value of a field's range -/

theorem decodeField_outOfBounds (hb : bitLen B < f.endBit) : decodeField f B = .error .outOfBounds := if_pos hb

theorem toNat_ofNat_bitsRead {a n : Nat} (hn : n ≤ 128) :
    (BitVec.ofNat 128 (bitsRead B a n)).toNat = bitsRead B a n :=
  Nat.mod_eq_of_lt (Nat.lt_of_lt_of_le (bitsRead_lt B a n) (Nat.pow_le_pow_right (by decide) hn))

/-- A field whose integers fit the value word reads as the unsigned number of its bits, or as their image (R161,
R165). -/
theorem readsAs_fieldValue (hwidth : ∀ nw, f.valueKind = .unsignedInteger nw → f.bitWidth ≤ 128) :
    f.readsAs B (fieldValue f B) := by
  cases hkind : f.valueKind with
  | unsignedInteger nw =>
    simp only [fieldValue, hkind]
    exact ⟨⟨nw, hkind⟩, (toNat_ofNat_bitsRead (hwidth nw hkind)).trans (bitsRead_eq_bitSum ..)⟩
  | byteBlob =>
    simp only [fieldValue, hkind]
    exact ⟨hkind, isImage_blobRead ..⟩

/-! ## The field a command addresses -/

theorem addressedField_badFieldIndex (h : sch.fields.length ≤ k) :
    addressedField (some sch) k = .error .badFieldIndex := by
  simp only [addressedField, List.getElem?_eq_none h]

theorem encodeAddressed_error (h : addressedField ss k = .error e) : encodeAddressed strict ss B k x = .error e := by
  simp only [encodeAddressed, h]

theorem decodeAddressed_error (h : addressedField ss k = .error e) : decodeAddressed ss B k = .error e := by
  simp only [decodeAddressed, h]

theorem decodeAddressed_outOfBounds (hf : sch.fields[k]? = some f) (hb : bitLen B < f.endBit) :
    decodeAddressed (some sch) B k = .error .outOfBounds := by
  simp only [decodeAddressed, addressedField_ok.2 hf, decodeField_outOfBounds hb]

/-! ## FENC and FDEC -/

theorem exec_fenc_error (h : encodeAddressed strict s.ss s.handed s.ports.fidx s.ports.fval = .error e) :
    failsWith (.fenc strict) s e :=
  failsWith_of_raise (State.finish_of_error h)

theorem exec_fdec_error (h : decodeAddressed s.ss s.handed s.ports.fidx = .error e) : failsWith .fdec s e :=
  failsWith_of_raise (State.finish_of_error h)

/-- On the field it addresses FENC runs the encode path on the buffer it is handed (R160). -/
theorem encodeAddressed_of_field (hss : s.ss = some sch) (hf : sch.fields[s.ports.fidx]? = some f) :
    encodeAddressed strict s.ss s.handed s.ports.fidx s.ports.fval = encodeField strict f s.handed s.ports.fval :=
  hss ▸ encodeAddressed_of_addressed (addressedField_ok.2 hf)

theorem exec_fenc_fieldError (hss : s.ss = some sch) (hf : sch.fields[s.ports.fidx]? = some f)
    (h : encodeField strict f s.handed s.ports.fval = .error e) : failsWith (.fenc strict) s e :=
  exec_fenc_error ((encodeAddressed_of_field hss hf).trans h)

theorem exec_fenc_ok (hss : s.ss = some sch) (hf : sch.fields[s.ports.fidx]? = some f)
    (h : encodeField strict f s.handed s.ports.fval = .ok A) : exec (.fenc strict) s = .next (s.returnBuffer A) :=
  State.finish_of_ok ((encodeAddressed_of_field hss hf).trans h)

/-- A command that reads the schema store looks at it before anything else (R162, R182). -/
theorem exec_noSchema (hss : s.ss = none) (hi : readsSchema i = true) : failsWith i s .noSchema := by
  cases i with
  | build | rdbits | wrbits | rdblob | wrblob => cases hi
  | fenc | fdec | encode | decode => exact failsWith_of_raise (State.finish_of_error (by rw [hss]; rfl))

end FieldChecks

/-! ## The obligations -/

/-- Settles O37: the three checks on the value, the bounds check, and then the stored number in the field's range. -/
theorem fencStoresTheField : Obligations.FencStoresTheField := by
  intro s sch f strict hss hf B w
  refine ⟨fun hwrong => ?_, fun v nw hval hkind hstrict hv => ?_, fun O hval hkind hO => ?_, fun htakes hb => ?_,
    fun htakes hb => ?_⟩
  · exact exec_fenc_fieldError hss hf (encodeField_kindMismatch hwrong)
  · subst hstrict
    exact exec_fenc_fieldError hss hf (hval ▸ encodeField_valueExceedsWidth hkind hv)
  · exact exec_fenc_fieldError hss hf (hval ▸ encodeField_blobLengthMismatch hkind hO)
  · exact exec_fenc_fieldError hss hf (encodeField_outOfBounds htakes hb)
  · exact ⟨_, _, exec_fenc_ok hss hf (encodeField_ok.2 ⟨htakes, hb, rfl⟩), returnsBuffer_returnBuffer s _,
      isWritten_bitsWrite _ hb⟩

/-- Settles O38: the bounds check, then the field's value, whose width a valid schema holds to the value word. -/
theorem fdecReturnsTheField : Obligations.FdecReturnsTheField := by
  intro s sch f hss hv hf B
  refine ⟨fun hb => exec_fdec_error (hss ▸ decodeAddressed_outOfBounds hf hb), fun hb => ?_⟩
  have hread : decodeAddressed s.ss s.handed s.ports.fidx = .ok (fieldValue f s.handed) :=
    hss ▸ decodeAddressed_ok.2 ⟨f, hf, hb, rfl⟩
  have hwidth (nw : NativeWidth) (hkind : f.valueKind = .unsignedInteger nw) : f.bitWidth ≤ 128 :=
    (hv.intWidth (List.mem_of_getElem? hf) hkind).2
  exact ⟨_, _, exec_fdec_ok hread, answersOnly_answer s _, readsAs_fieldValue hwidth⟩

/-- Settles O40: FDEC is handed the buffer that FENC returned, and the number stored there is no larger than the value
FENC was given, so it fits the value word. -/
theorem truncationLaw : Obligations.TruncationLaw := by
  intro s t r sch f v q hss hf hval h hresp hst hbuf hidx
  obtain ⟨htakes, hb, rfl⟩ := exec_fenc_success hss hf h hresp hst
  obtain ⟨u, hu, hy⟩ := exec_fdec_returnBuffer hss hbuf (hidx ▸ hf) ((bitLen_bitsWrite ..).symm ▸ hb)
  rw [fieldValue_written htakes hb, hval] at hy
  exact ⟨u, _, hu, hy, Nat.mod_eq_of_lt (Nat.lt_of_le_of_lt (Nat.mod_le _ _) v.isLt)⟩

/-- Settles O36: the schema store is looked at first, the index next. -/
theorem schemaAndIndexChecks : Obligations.SchemaAndIndexChecks := by
  intro s
  refine ⟨fun hss i hi => exec_noSchema hss hi, fun sch hss hidx => ?_⟩
  have hindex : addressedField s.ss s.ports.fidx = .error .badFieldIndex := hss ▸ addressedField_badFieldIndex hidx
  exact ⟨fun strict => exec_fenc_error (encodeAddressed_error hindex), exec_fdec_error (decodeAddressed_error hindex)⟩

end Sys2Proof.Machine
end

section
/-! PROOFS. The Register Codec (`43_register_codec.md` R180 to R191): what the field loops of ENCODE and DECODE answer
under a valid schema, and each of the two commands run on what the other returned. -/

namespace Sys2Proof.Machine

section Codec

variable {s t : State} {sch : RegisterSchema} {pre post fields : List FieldDescriptor} {f : FieldDescriptor}
  {A B : Bytes} {x : Value} {strict : Bool} {vals vals' R : FieldValues} {e : EngineError}

/-! ## The field loop of ENCODE -/

/-- The field loop of ENCODE on a list cut in two is the loop on the second part after the loop on the first. -/
theorem encodeFields_append (strict : Bool) (vals : FieldValues) (pre post : List FieldDescriptor) (B : Bytes) :
    encodeFields strict vals (pre ++ post) B =
      (encodeFields strict vals pre B).bind (encodeFields strict vals post) := by
  induction pre generalizing B with
  | nil => rfl
  | cons f rest ih =>
    rw [List.cons_append, encodeFields, encodeFields]
    cases valueOf vals f.name with
    | none => rfl
    | some x =>
      dsimp only
      cases encodeField strict f B x with
      | error e => rfl
      | ok A => exact ih A

theorem encodeFields_missingField (hx : valueOf vals f.name = none) :
    encodeFields strict vals (f :: post) B = .error (.missingField f.name) := by
  simp only [encodeFields, hx]

theorem encodeFields_fieldError (hx : valueOf vals f.name = some x) (h : encodeField strict f B x = .error e) :
    encodeFields strict vals (f :: post) B = .error e := by
  simp only [encodeFields, hx, h]

/-- The field loop of ENCODE looks up the names of its fields and no other (R180, R184). -/
theorem encodeFields_congr (h : ∀ f ∈ fields, valueOf vals f.name = valueOf vals' f.name) (B : Bytes) :
    encodeFields strict vals fields B = encodeFields strict vals' fields B := by
  induction fields generalizing B with
  | nil => rfl
  | cons f rest ih =>
    obtain ⟨hf, hrest⟩ := List.forall_mem_cons.1 h
    simp only [encodeFields, hf, ih hrest]

/-! ## ENCODE under a valid schema -/

/-- The new buffer holds every field of the schema, so values that the fields take are enough (R187). -/
theorem encodeFields_zeros_succeeds (hv : sch.Valid) (hmem : ∀ f ∈ fields, f ∈ sch.fields)
    (h : ∀ f ∈ fields, ∃ x, valueOf vals f.name = some x ∧ f.takes strict x) :
    ∃ B, encodeFields strict vals fields (zeros (ceil8 sch.totalBits)) = .ok B :=
  encodeFields_succeeds fun f hf =>
    have ⟨x, hx, htakes⟩ := h f hf
    ⟨x, hx, htakes, hv.endBit_le_bitLen (by simp) (hmem f hf)⟩

/-- Values that every field takes are encoded (R180, R187). -/
theorem encodeRegister_succeeds (hv : sch.Valid)
    (h : ∀ f ∈ sch.fields, ∃ x, valueOf vals f.name = some x ∧ f.takes strict x) :
    ∃ B, encodeRegister strict sch vals = .ok B :=
  encodeFields_zeros_succeeds hv (fun _ hf => hf) h

/-- When the fields before `f` take their values, the error of the field loop at `f` is the error of ENCODE (R183). -/
theorem encodeRegister_error (hv : sch.Valid) (hfields : sch.fields = pre ++ f :: post)
    (hpre : ∀ g ∈ pre, ∃ x, valueOf vals g.name = some x ∧ g.takes strict x)
    (hf : ∀ B, encodeFields strict vals (f :: post) B = .error e) : encodeRegister strict sch vals = .error e := by
  obtain ⟨B, hB⟩ := encodeFields_zeros_succeeds hv (fun g hg => hfields ▸ List.mem_append_left _ hg) hpre
  rw [encodeRegister, hfields, encodeFields_append, hB]
  exact hf B

/-! ## DECODE under a valid schema -/

/-- `R` maps exactly the names of the schema to what their fields hold in `B` (R181), in canonical form (log 7). -/
structure IsDecoding (sch : RegisterSchema) (B : Bytes) (R : FieldValues) : Prop where
  wf     : FieldValues.wf R
  fields : ∀ f ∈ sch.fields, valueOf R f.name = some (fieldValue f B)
  others : ∀ nm, nm ∉ sch.fields.map (·.name) → valueOf R nm = none

theorem decodeRegister_bufferTooShort (hB : B.length < ceil8 sch.totalBits) :
    decodeRegister sch B = .error .bufferTooShort := if_pos hB

theorem decodeRegister_succeeds (hv : sch.Valid) (hB : ceil8 sch.totalBits ≤ B.length) :
    ∃ R, decodeRegister sch B = .ok R ∧ IsDecoding sch B R := by
  obtain ⟨R, hR, hfields, hothers, hwf⟩ :=
    decodeFields_ok (R := []) (fun f hf => hv.endBit_le_bitLen hB hf) hv.names
  exact ⟨R, (if_neg (Nat.not_lt.2 hB)).trans hR, hwf fieldValues_wf_nil, hfields, hothers⟩

/-- DECODE succeeds on the buffers of at least `ceil8(T)` bytes alone, with the decoding (R181, R188). -/
theorem decodeRegister_ok (hv : sch.Valid) (h : decodeRegister sch B = .ok R) :
    ceil8 sch.totalBits ≤ B.length ∧ IsDecoding sch B R := by
  by_cases hB : ceil8 sch.totalBits ≤ B.length
  · obtain ⟨R', hR', hdec⟩ := decodeRegister_succeeds hv hB
    obtain rfl : R' = R := Except.ok.inj (hR'.symm.trans h)
    exact ⟨hB, hdec⟩
  · rw [decodeRegister_bufferTooShort (Nat.not_le.1 hB)] at h
    cases h

/-! ## Values and stored numbers -/

/-- A value that a field takes is its own reduction exactly when the field keeps it (R168, R189). -/
theorem reducedValue_eq_iff (htakes : f.takes strict x) : reducedValue f.bitWidth x = x ↔ f.keeps x := by
  refine ⟨fun h => ?_, reducedValue_of_keeps⟩
  cases x with
  | int v =>
    obtain ⟨hkind, -⟩ := htakes
    have hv : v.toNat % 2 ^ f.bitWidth = v.toNat := by
      have hlt : v.toNat % 2 ^ f.bitWidth < 2 ^ 128 := Nat.lt_of_le_of_lt (Nat.mod_le _ _) v.isLt
      simpa only [BitVec.toNat_ofNat, Nat.mod_eq_of_lt hlt] using congrArg BitVec.toNat (Value.int.inj h)
    exact ⟨hkind, hv ▸ Nat.mod_lt _ (Nat.two_pow_pos _)⟩
  | blob O =>
    obtain ⟨hkind, hO⟩ := htakes
    exact ⟨hkind, hO, (reducedImage_eq_iff hO).1 (Value.blob.inj h)⟩

/-- The image of a range is, as a number, the number of the range: its pad bits are 0 (R60). -/
theorem beVal_blobRead (B : Bytes) (a L : Nat) : beVal (blobRead B a L) = bitsRead B a L := by
  have hlen : bitLen (blobRead B a L) = blobPad L + L := by rw [bitLen, blobRead_length, blobPad_add]
  have hpad : bitsRead (blobRead B a L) 0 (blobPad L) = 0 :=
    bitsRead_eq_zero fun i _ hi => bitAt_blobRead_pad B a L i (by omega)
  have himage : bitsRead (blobRead B a L) (blobPad L) L = bitsRead B a L :=
    bitsValue_congr fun j hj => bitAt_blobRead_in B a L j hj
  rw [beVal_eq_bitsRead, hlen, bitsRead_add, hpad, Nat.zero_mul, Nat.zero_add, Nat.zero_add, himage]

/-- What a field reads as is a value that it takes, strict or not (R161, R191). -/
theorem takes_fieldValue (strict : Bool) (hwidth : ∀ nw, f.valueKind = .unsignedInteger nw → f.bitWidth ≤ 128) :
    f.takes strict (fieldValue f B) := by
  cases hkind : f.valueKind with
  | unsignedInteger nw =>
    simp only [fieldValue, hkind]
    exact ⟨⟨nw, hkind⟩, fun _ => (toNat_ofNat_bitsRead (hwidth nw hkind)).trans_lt (bitsRead_lt ..)⟩
  | byteBlob =>
    simp only [fieldValue, hkind]
    exact ⟨hkind, blobRead_length ..⟩

/-- What a field reads as stores the number of the field's range (R161, R186). -/
theorem storedNat_fieldValue (hwidth : ∀ nw, f.valueKind = .unsignedInteger nw → f.bitWidth ≤ 128) :
    storedNat f.bitWidth (fieldValue f B) = bitsRead B f.bitOffset f.bitWidth := by
  have hmod : bitsRead B f.bitOffset f.bitWidth % 2 ^ f.bitWidth = bitsRead B f.bitOffset f.bitWidth :=
    Nat.mod_eq_of_lt (bitsRead_lt ..)
  cases hkind : f.valueKind with
  | unsignedInteger nw => simp only [fieldValue, hkind, storedNat, toNat_ofNat_bitsRead (hwidth nw hkind), hmod]
  | byteBlob => simp only [fieldValue, hkind, storedNat, beVal_blobRead, hmod]

/-- Two buffers whose fields hold the same numbers agree on every bit of the layout (R186). -/
theorem RegisterSchema.Valid.bitAt_eq (hv : sch.Valid)
    (h : ∀ f ∈ sch.fields, bitsRead A f.bitOffset f.bitWidth = bitsRead B f.bitOffset f.bitWidth) {i : Nat}
    (hi : i < sch.totalBits) : bitAt A i = bitAt B i := by
  have hwhole : bitsRead A 0 sch.totalBits = bitsRead B 0 sch.totalBits := by
    rw [hv.total, bitsRead_of_prefixSums A hv.offsets (Nat.zero_add _),
      bitsRead_of_prefixSums B hv.offsets (Nat.zero_add _)]
    exact congrArg List.sum (List.map_congr_left fun f hf => by rw [h f hf])
  rw [← Nat.zero_add i, ← testBit_bitsRead A 0 _ i hi, hwhole, testBit_bitsRead B 0 _ i hi]

/-! ## Round trips -/

/-- DECODE of what ENCODE returned: every field's value reduced to its field, for exactly the schema's names (R189). -/
theorem decodeRegister_encoded (hv : sch.Valid) (h : encodeRegister strict sch vals = .ok B) :
    ∃ R, decodeRegister sch B = .ok R ∧
      (∀ f ∈ sch.fields, ∃ x, valueOf vals f.name = some x ∧ f.takes strict x ∧
        valueOf R f.name = some (reducedValue f.bitWidth x)) ∧
      ∀ nm, nm ∉ sch.fields.map (·.name) → valueOf R nm = none := by
  obtain ⟨hlength, hfields, -⟩ := encodeRegister_ok hv h
  obtain ⟨R, hR, hdec⟩ := decodeRegister_succeeds hv hlength.ge
  refine ⟨R, hR, fun f hf => ?_, hdec.others⟩
  obtain ⟨x, hx, htakes, hstored⟩ := hfields f hf
  exact ⟨x, hx, htakes, fieldValue_of_stored htakes hstored ▸ hdec.fields f hf⟩

/-- ENCODE of what DECODE returned: the bits of the layout as they were, and 0 in every bit after it (R191). -/
theorem encodeRegister_decoded (hv : sch.Valid) (hdec : IsDecoding sch B R) (strict : Bool) :
    ∃ A, encodeRegister strict sch R = .ok A ∧ A.length = ceil8 sch.totalBits ∧
      (∀ i < sch.totalBits, bitAt A i = bitAt B i) ∧ ∀ i, sch.totalBits ≤ i → bitAt A i = false := by
  have hwidth (f) (hf : f ∈ sch.fields) (nw) (hkind : f.valueKind = .unsignedInteger nw) : f.bitWidth ≤ 128 :=
    (hv.intWidth hf hkind).2
  obtain ⟨A, hA⟩ := encodeRegister_succeeds (strict := strict) hv
    fun f hf => ⟨_, hdec.fields f hf, takes_fieldValue strict (hwidth f hf)⟩
  obtain ⟨hlength, hfields, hpast⟩ := encodeRegister_ok hv hA
  refine ⟨A, hA, hlength, fun i hi => hv.bitAt_eq (fun f hf => ?_) hi, hpast⟩
  obtain ⟨x, hx, -, hstored⟩ := hfields f hf
  obtain rfl : fieldValue f B = x := Option.some.inj ((hdec.fields f hf).symm.trans hx)
  exact hstored.trans (storedNat_fieldValue (hwidth f hf))

/-! ## What the two commands answer -/

theorem exec_encode_ok (hss : s.ss = some sch) (h : encodeRegister strict sch s.ports.vals = .ok B) :
    exec (.encode strict) s = .next (s.returnBuffer B) := State.finish_of_ok (hss ▸ h)

theorem exec_encode_error (hss : s.ss = some sch) (h : encodeRegister strict sch s.ports.vals = .error e) :
    failsWith (.encode strict) s e :=
  failsWith_of_raise (State.finish_of_error (hss ▸ h))

theorem exec_decode_ok (hss : s.ss = some sch) (h : decodeRegister sch s.handed = .ok R) :
    exec .decode s = .next (s.answer { Response.ok with rvals := some R }) := State.finish_of_ok (hss ▸ h)

theorem exec_decode_error (hss : s.ss = some sch) (h : decodeRegister sch s.handed = .error e) :
    failsWith .decode s e :=
  failsWith_of_raise (State.finish_of_error (hss ▸ h))

/-- An ENCODE that answered with a buffer left that buffer, made by its field loop (R180). -/
theorem exec_encode_success (hss : s.ss = some sch) (h : exec (.encode strict) s = .next t)
    (hresp : t.resp = some { status := .success, buf := some B }) :
    encodeRegister strict sch s.ports.vals = .ok B ∧ t = s.returnBuffer B := by
  have hB : encodeRegister strict sch s.ports.vals = .ok B := by
    simpa only [hss, encodeLoaded, loadedSchema] using encodeLoaded_of_resp h hresp
  exact ⟨hB, Host.Outcome.next.inj (h.symm.trans (exec_encode_ok hss hB))⟩

/-- A DECODE that answered with a mapping changed nothing, and its field loop made the mapping (R181). -/
theorem exec_decode_success (hss : s.ss = some sch) (h : exec .decode s = .next t)
    (hresp : t.resp = some { status := .success, rvals := some R }) :
    decodeRegister sch s.handed = .ok R ∧ t.ss = s.ss := by
  cases exec_success h hresp rfl with
  | decode R' hR' =>
    cases hresp
    exact ⟨by rwa [hss] at hR', rfl⟩

end Codec

/-! ## The obligations -/

/-- Settles O48: DECODE is handed the buffer that ENCODE returned, in which every field holds the stored number. -/
theorem registerRoundTrip : Obligations.RegisterRoundTrip := by
  intro s t sch strict B q hss hv h hresp hbuf
  obtain ⟨hB, rfl⟩ := exec_encode_success hss h hresp
  obtain ⟨R, hR, hfields, hothers⟩ := decodeRegister_encoded hv hB
  refine ⟨_, R, exec_decode_ok hss (by rwa [returnBuffer_handed s B hbuf]), rfl, fun f hf => ?_, hothers,
    forall₂_congr fun f hf => ?_⟩
  · obtain ⟨x, hx, -, hreduced⟩ := hfields f hf
    exact ⟨x, hx, hreduced⟩
  · obtain ⟨x, hx, htakes, hreduced⟩ := hfields f hf
    simp only [hx, hreduced, Option.some.injEq, reducedValue_eq_iff htakes, forall_eq']

/-- Settles O49: every decoded value is one that its field takes, and stores the number its field held. -/
theorem decodeThenEncode : Obligations.DecodeThenEncode := by
  intro s t sch strict R q hss hv h hresp hq
  obtain ⟨hR, htss⟩ := exec_decode_success hss h hresp
  obtain ⟨-, hdec⟩ := decodeRegister_ok hv hR
  obtain ⟨A, hA, hlength, hbits, hpast⟩ := encodeRegister_decoded hv hdec strict
  refine ⟨_, A, exec_encode_ok (htss.trans hss) (hq ▸ hA), rfl, hlength, fun i hi => bitNat_eq_iff.2 (hbits i hi),
    fun i hi _ => ?_⟩
  rw [bitNat_eq_bitAt, hpast i hi, Bool.toNat_false]

/-- Settles O42: the field loop meets no error, and leaves the stored numbers in a buffer that began as zeros. -/
theorem encodeBuildsTheBuffer : Obligations.EncodeBuildsTheBuffer := by
  intro s sch strict hss hv htaken
  obtain ⟨B, hB⟩ := encodeRegister_succeeds hv htaken
  obtain ⟨hlength, hfields, hpast⟩ := encodeRegister_ok hv hB
  refine ⟨_, B, exec_encode_ok hss hB, returnsBuffer_returnBuffer s B, hlength, fun f hf x hx => ?_, fun i hi _ => ?_⟩
  · obtain ⟨y, hy, -, hstored⟩ := hfields f hf
    obtain rfl : y = x := Option.some.inj (hy.symm.trans hx)
    rw [← bitsRead_eq_bitSum, hstored]
  · rw [bitNat_eq_bitAt, hpast i hi, Bool.toNat_false]

/-- Settles O43: the checks on the first field that fails one, missing value, kind, then width or length. -/
theorem encodeReportsTheFirstFailure : Obligations.EncodeReportsTheFirstFailure := by
  intro s sch strict pre post f hss hv hsplit hpre
  have hfails {e : EngineError} (hf : ∀ B, encodeFields strict s.ports.vals (f :: post) B = .error e) :
      failsWith (.encode strict) s e := exec_encode_error hss (encodeRegister_error hv hsplit hpre hf)
  refine ⟨fun hx => ?_, fun x hx hwrong => ?_, fun v nw hx hkind hstrict hwide => ?_, fun O hx hkind hO => ?_⟩
  · exact hfails fun _ => encodeFields_missingField hx
  · exact hfails fun _ => encodeFields_fieldError hx (encodeField_kindMismatch hwrong)
  · subst hstrict
    exact hfails fun _ => encodeFields_fieldError hx (encodeField_valueExceedsWidth hkind hwide)
  · exact hfails fun _ => encodeFields_fieldError hx (encodeField_blobLengthMismatch hkind hO)

/-- Settles O45: the two maps give one result of the field loop. -/
theorem encodeLooksUpSchemaNamesOnly : Obligations.EncodeLooksUpSchemaNamesOnly := by
  intro s sch strict vals hss hvals
  have hsame : encodeLoaded strict s.ss vals = encodeLoaded strict s.ss s.ports.vals := by
    rw [hss]
    exact encodeFields_congr hvals _
  exact finish_ports_congr (p := { s.ports with vals := vals }) (q := s.ports) hsame (returnBuffer_ports_congr rfl)

/-- Settles O46: the length check, then a field loop that meets no error. -/
theorem decodeReturnsEveryField : Obligations.DecodeReturnsEveryField := by
  intro s sch hss hv B
  refine ⟨fun hB => exec_decode_error hss (decodeRegister_bufferTooShort hB), fun hB => ?_⟩
  obtain ⟨R, hR, hdec⟩ := decodeRegister_succeeds hv hB
  refine ⟨_, R, exec_decode_ok hss hR, answersOnly_answer s _, hdec.wf, fun f hf => ?_, hdec.others⟩
  exact ⟨_, hdec.fields f hf, readsAs_fieldValue fun nw hkind => (hv.intWidth hf hkind).2⟩

/-- Settles O50: the schema is BUILD's own, its six fields take any five integers and any image of 60 bytes, and the
image comes back reduced to 479 bits. -/
theorem misalignedBlobRoundTrip : Obligations.MisalignedBlobRoundTrip := by
  unfold Obligations.MisalignedBlobRoundTrip
  extract_lets name specs
  refine ⟨⟨layOut 0 specs, 620⟩, by decide, by decide, rfl, fun v0 v1 v2 v3 v4 O hO => ?_⟩
  have hv : RegisterSchema.Valid ⟨layOut 0 specs, 620⟩ := buildSchema_valid (specs := specs) (by decide)
  obtain ⟨B, hB⟩ := encodeRegister_succeeds (strict := false) hv (vals := [(name 0, .int v0), (name 1, .int v1),
    (name 2, .int v2), (name 3, .int v3), (name 4, .int v4), (name 5, .blob O)]) (by
      simp [specs, name, layOut, valueOf, FieldDescriptor.takes, specKind, kindOfCode, hO, ceil8])
  obtain ⟨hlength, -, -⟩ := encodeRegister_ok hv hB
  obtain ⟨R, hR, hfields, -⟩ := decodeRegister_encoded hv hB
  obtain ⟨x, hx, htakes, hreduced⟩ := hfields ⟨name 5, 479, 141, .byteBlob⟩ (by decide)
  obtain rfl : Value.blob O = x := by simpa [name, valueOf] using hx
  refine ⟨B, R, hB, hlength.trans (by decide), hR, fun hpad => ?_, hreduced.trans ?_⟩
  · have hkeeps : ∀ i < blobPad 479, bitNat O i = 0 := fun i hi => Nat.lt_one_iff.1 hi ▸ hpad
    exact hreduced.trans (congrArg some ((reducedValue_eq_iff htakes).2 ⟨rfl, htakes.2, hkeeps⟩))
  · rw [reducedValue, show ceil8 479 = 60 by decide]

end Sys2Proof.Machine
end

section
/-! PROOFS. The errors each command raises (`60_exceptions.md` R203): those of its own checks, and for ENCODE and DECODE
none of the cursor's, because the fields of a valid schema lie in the buffer (`43_register_codec.md` R187, R188). -/

namespace Sys2Proof.Machine

section Errors

variable {i : Instr} {s t : State} {sch : RegisterSchema} {fields : List FieldDescriptor} {f : FieldDescriptor}
  {B O : Bytes} {x : Value} {v : Val} {a n k : Nat} {strict : Bool} {vals : FieldValues} {e : EngineError}
  {ss : Option RegisterSchema}

/-! ## The Bit Cursor -/

theorem readBits_error_status (h : readBits B a n = .error e) : e.status ∈ mayRaise .rdbits := by
  unfold readBits at h
  repeat' split at h
  all_goals cases h
  all_goals simp [mayRaise, EngineError.status]

theorem writeBits_error_status (h : writeBits B a n v = .error e) : e.status ∈ mayRaise .wrbits := by
  unfold writeBits at h
  repeat' split at h
  all_goals cases h
  all_goals simp [mayRaise, EngineError.status]

theorem readBlob_error_status (h : readBlob B a n = .error e) : e.status ∈ mayRaise .rdblob := by
  unfold readBlob at h
  split at h
  · cases h
    simp [mayRaise, EngineError.status]
  · cases h

theorem writeBlob_error_status (h : writeBlob B a n O = .error e) : e.status ∈ mayRaise .wrblob := by
  unfold writeBlob at h
  repeat' split at h
  all_goals cases h
  all_goals simp [mayRaise, EngineError.status]

/-! ## One field -/

/-- The four errors of the encode path, two of them with the condition under which alone they are raised (R160). -/
theorem encodeField_error_cases (h : encodeField strict f B x = .error e) :
    e = .kindMismatch f.name ∨ (strict = true ∧ e = .valueExceedsWidth f.name) ∨ e = .blobLengthMismatch f.name ∨
      (bitLen B < f.endBit ∧ e = .outOfBounds) := by
  unfold encodeField at h
  split at h
  · cases h; exact .inl rfl
  · cases h; exact .inl rfl
  · split at h
    · rename_i hwide
      cases h; exact .inr (.inl ⟨hwide.1, rfl⟩)
    · split at h
      · rename_i hb
        cases h; exact .inr (.inr (.inr ⟨hb, rfl⟩))
      · cases h
  · split at h
    · cases h; exact .inr (.inr (.inl rfl))
    · split at h
      · rename_i hb
        cases h; exact .inr (.inr (.inr ⟨hb, rfl⟩))
      · cases h

theorem addressedField_error_cases (h : addressedField ss k = .error e) : e = .noSchema ∨ e = .badFieldIndex := by
  unfold addressedField at h
  split at h
  · cases h; exact .inl rfl
  · split at h
    · cases h; exact .inr rfl
    · cases h

theorem encodeAddressed_error_status (h : encodeAddressed strict ss B k x = .error e) :
    e.status ∈ mayRaise (.fenc strict) := by
  cases haddr : addressedField ss k with
  | error e' =>
    obtain rfl : e' = e := Except.error.inj ((encodeAddressed_error haddr).symm.trans h)
    obtain rfl | rfl := addressedField_error_cases haddr <;> simp [mayRaise, EngineError.status]
  | ok f =>
    rw [encodeAddressed_of_addressed haddr] at h
    obtain rfl | ⟨rfl, rfl⟩ | rfl | ⟨-, rfl⟩ := encodeField_error_cases h <;> simp [mayRaise, EngineError.status]

theorem decodeAddressed_error_status (h : decodeAddressed ss B k = .error e) : e.status ∈ mayRaise .fdec := by
  cases haddr : addressedField ss k with
  | error e' =>
    obtain rfl : e' = e := Except.error.inj ((decodeAddressed_error haddr).symm.trans h)
    obtain rfl | rfl := addressedField_error_cases haddr <;> simp [mayRaise, EngineError.status]
  | ok f =>
    simp only [decodeAddressed, haddr, decodeField] at h
    split at h
    · cases h
      simp [mayRaise, EngineError.status]
    · cases h

/-! ## All fields -/

/-- On a buffer that holds every field the field loop of ENCODE meets no error of the cursor (R187). -/
theorem encodeFields_error_status (hb : ∀ f ∈ fields, f.endBit ≤ bitLen B)
    (h : encodeFields strict vals fields B = .error e) : e.status ∈ mayRaise (.encode strict) := by
  induction fields generalizing B with
  | nil => cases h
  | cons f rest ih =>
    obtain ⟨hf, hrest⟩ := List.forall_mem_cons.1 hb
    unfold encodeFields at h
    split at h
    · cases h
      simp [mayRaise, EngineError.status]
    · split at h
      · rename_i e' herror
        cases h
        have hcases := encodeField_error_cases herror
        simp only [Nat.not_lt.2 hf, false_and, or_false] at hcases
        obtain rfl | ⟨rfl, rfl⟩ | rfl := hcases <;> simp [mayRaise, EngineError.status]
      · rename_i A hA
        obtain ⟨-, -, rfl⟩ := encodeField_ok.1 hA
        exact ih (by simpa only [bitLen_bitsWrite] using hrest) h

theorem encodeLoaded_error_status (hvalid : ∀ sch, ss = some sch → sch.Valid)
    (h : encodeLoaded strict ss vals = .error e) : e.status ∈ mayRaise (.encode strict) := by
  cases ss with
  | none =>
    cases h
    simp [mayRaise, EngineError.status]
  | some sch =>
    exact encodeFields_error_status (fun f hf => (hvalid sch rfl).endBit_le_bitLen (by simp) hf) h

theorem decodeLoaded_error_status (hvalid : ∀ sch, ss = some sch → sch.Valid) (h : decodeLoaded ss B = .error e) :
    e.status ∈ mayRaise .decode := by
  cases ss with
  | none =>
    cases h
    simp [mayRaise, EngineError.status]
  | some sch =>
    change decodeRegister sch B = .error e at h
    by_cases hB : ceil8 sch.totalBits ≤ B.length
    · obtain ⟨R, hR, -⟩ := decodeRegister_succeeds (hvalid sch rfl) hB
      rw [hR] at h
      cases h
    · rw [decodeRegister_bufferTooShort (Nat.not_le.1 hB)] at h
      cases h
      simp [mayRaise, EngineError.status]

theorem buildSchema_error_status {specs : List FieldSpec} (h : buildSchema specs = .error e) :
    e.status ∈ mayRaise .build := by
  unfold buildSchema at h
  split at h
  · rename_i hfault
    cases h
    exact schemaFault_status hfault
  · cases h

/-! ## What a command answers -/

/-- A command that did not succeed raised the error its checks ended in (R207). -/
theorem finish_status {α : Type} {res : Except EngineError α} {done : α → State} {r : Response}
    (herror : ∀ e, res = .error e → e.status ∈ mayRaise i)
    (hdone : ∀ a, (done a).resp.map Response.status = some .success) (h : s.finish res done = .next t)
    (hr : t.resp = some r) : r.status = .success ∨ r.status ∈ mayRaise i := by
  obtain ⟨e, he, rfl⟩ | ⟨a, -, rfl⟩ := State.finish_cases _ _ _ h
  · cases hr
    exact .inr (herror e he)
  · have hsuccess := hdone a
    rw [hr] at hsuccess
    exact .inl (Option.some.inj hsuccess)

end Errors

/-- Settles O20: the errors of each command's checks. -/
theorem commandsRaiseOnlyTheirErrors : Obligations.CommandsRaiseOnlyTheirErrors := by
  intro i s t r hvalid h hr
  cases i with
  | build => exact finish_status (fun _ => buildSchema_error_status) (fun _ => rfl) h hr
  | rdbits => exact finish_status (fun _ => readBits_error_status) (fun _ => rfl) h hr
  | wrbits => exact finish_status (fun _ => writeBits_error_status) (fun _ => rfl) h hr
  | rdblob => exact finish_status (fun _ => readBlob_error_status) (fun _ => rfl) h hr
  | wrblob => exact finish_status (fun _ => writeBlob_error_status) (fun _ => rfl) h hr
  | fenc strict => exact finish_status (fun _ => encodeAddressed_error_status) (fun _ => rfl) h hr
  | fdec => exact finish_status (fun _ => decodeAddressed_error_status) (fun _ => rfl) h hr
  | encode strict => exact finish_status (fun _ => encodeLoaded_error_status hvalid) (fun _ => rfl) h hr
  | decode => exact finish_status (fun _ => decodeLoaded_error_status hvalid) (fun _ => rfl) h hr

end Sys2Proof.Machine
end

section
/-! PROOFS. Errors (`60_exceptions.md` R201, R205): a command answered with an error has raised it and done nothing else,
and what each error puts in the response. -/

namespace Sys2Proof.Machine

section Raise

variable {s t : State} {p : Ports} {rest : List HostEvent} {i : Instr} {r : Response}

theorem Success.resp_status (hok : Success s i t) (hr : t.resp = some r) : r.status = .success := by
  obtain ⟨r', hr', hbyte, -, -⟩ := hok.resp
  obtain rfl : r = r' := Option.some.inj (hr.symm.trans hr')
  exact Status.code_eq_zero hbyte

theorem exec_raise_of_status_ne_success (h : exec i s = .next t) (hr : t.resp = some r) (hne : r.status ≠ .success) :
    ∃ e, t = s.raise e :=
  (exec_cases h).resolve_right fun hok => hne (hok.resp_status hr)

/-- A presented command answered with an error, its byte legal or not, leaves the state of `raise` (R83, R205). -/
theorem step_raise_of_status_ne_success (hp : s.pending = .command p :: rest) (h : step s = .next t)
    (hr : t.resp = some r) (hne : r.status ≠ .success) : ∃ e, t = (s.present p rest).raise e := by
  cases hd : decodeByte p.cmd with
  | error e =>
    rw [step_illegal hp hd] at h
    cases h
    exact ⟨.illegalCommand, rfl⟩
  | ok i =>
    rw [step_command hp hd] at h
    exact exec_raise_of_status_ne_success h hr hne

end Raise

/-- Settles O19: the step raised an error on the presented state, and `raise` sets the response and the ports alone. -/
theorem errorsChangeNothing : Obligations.ErrorsChangeNothing := by
  intro s t p rest r hp h hr hne
  obtain ⟨e, rfl⟩ := step_raise_of_status_ne_success hp h hr hne
  obtain rfl : e.response = r := Option.some.inj hr
  exact ⟨rfl, rfl, rfl, rfl, e, rfl, rfl⟩

/-- Settles O8: the seventeen rows of R201, each read off the definitions of the status, its code and the name. -/
theorem errorCodesAndNames : Obligations.ErrorCodesAndNames := by
  intro n
  dsimp only
  and_intros
  all_goals rfl

end Sys2Proof.Machine
end
